-- ==== Sys2Proof/Word.lean ====
section
/-! DEFINITION. Word.lean: the widths of the block's values (spec/00_scope.md R8: every value is unsigned, bits
numbered from 0) and the names of its buffers and buffer spaces. -/

namespace Sys2Proof

/-- `u8` (R8). -/
abbrev Byte := BitVec 8

/-- `u16` (R8): `rx_len`, `tx_len`, `frame_len` and the read indexes (D25). -/
abbrev Half := BitVec 16

/-- `u64` (R8): the destination address of a data frame. -/
abbrev Addr := BitVec 64

/-- The identity of a receive buffer: "the numbers 0 and 1" (10_state.md R26). -/
inductive BufId where
  | buf0
  | buf1
deriving DecidableEq, Repr

/-- The three byte-addressed buffer spaces (20_memory.md R50); `PAYLOAD` is an operand, not state. -/
inductive Space where
  | rxbuf0
  | rxbuf1
  | txbuf
deriving DecidableEq, Repr

end Sys2Proof
end

