-- ==== Sys2Proof/Config.lean ====
section
/-! DEFINITION. Config.lean: the constants of the block (spec/00_scope.md R7), the legal range of its one parameter
CAP (R6), and the free values of the bytes the spec leaves unspecified (10_state.md R35). -/

namespace Sys2Proof.Config

/-- `START`, frame byte 0 (R7). -/
def start : Byte := 0x7E#8

/-- `T_AT_COMMAND` (R7, R73). -/
def tAtCommand : Byte := 0x08#8

/-- `T_TX_REQUEST` (R7, R73). -/
def tTxRequest : Byte := 0x10#8

/-- `T_AT_RESPONSE` (R7, R73). -/
def tAtResponse : Byte := 0x88#8

/-- `T_MODEM_STATUS` (R7, R73). -/
def tModemStatus : Byte := 0x8A#8

/-- `T_TX_STATUS` (R7, R73). -/
def tTxStatus : Byte := 0x8B#8

/-- `T_RX_PACKET` (R7, R73). -/
def tRxPacket : Byte := 0x90#8

/-- `BCAST`, the broadcast address (R7, R87). -/
def bcast : Addr := 0x000000000000FFFF#64

/-- `RSVD_HI` (R7). -/
def rsvdHi : Byte := 0xFF#8

/-- `RSVD_LO` (R7). -/
def rsvdLo : Byte := 0xFE#8

/-- `HOP_LIMIT` (R7). -/
def hopLimit : Byte := 0x00#8

/-- `TX_OPTIONS` (R7). -/
def txOptions : Byte := 0x00#8

/-- `CK_TARGET`: what the checksummed bytes sum to, modulo 256 (R7). -/
def ckTarget : Byte := 0xFF#8

/-- `ERR_MAX`: where the error counter stops (R7). -/
def errMax : Byte := 255#8

/-- `ID_MIN` (R7). -/
def idMin : Byte := 1#8

/-- `ID_MAX` (R7). -/
def idMax : Byte := 255#8

/-- `OVERHEAD`: total frame length minus the length field (R7). -/
def overhead : Nat := 4

/-- `CMD_HDR`: what a command frame's length field adds to its payload (R7). -/
def cmdHdr : Nat := 2

/-- `DATA_HDR`: what a data frame's length field adds to its payload (R7, conflict C1). -/
def dataHdr : Nat := 14

/-- The default of the parameter CAP (R6, D1). -/
def defaultCap : Nat := 100

/-- The legal range of CAP (R6, D1): every rule of the spec is written for any CAP in it. -/
abbrev legalCap (cap : Nat) : Prop := 18 ≤ cap ∧ cap ≤ 65535

/-- The byte found at an index of a buffer space that the block has not written since the last reset. FREE VALUE, no
body: "holds some value in 0..255 that this spec does not fix, that may differ from one reset to the next and from one
byte to the next" (10_state.md R35, 93_implementation_defined.md U1). The first argument is the number of resets
performed (`State.epoch`); log entry 2. -/
opaque unspecifiedByte : Nat → Space → Nat → Byte

end Sys2Proof.Config
end

