-- ==== Sys2Proof/Syntax.lean ====
section
/-! DEFINITION. Syntax.lean: the operations of the block, one constructor per row of spec/opcode_table.json: its eleven
port operations (00_scope.md R9, 30_encoding.md R85) and its seven wire frame formats (30_encoding.md R71 to R77). -/

namespace Sys2Proof

/-- One operation. A frame row is the FEED of one whole frame to the receiver (R91; log entry 6); its operands are what
the row's pattern leaves open, and its length field N is computed from how many bytes follow. -/
inductive Instr where
  /-- `RESET` (70_reset_and_hazards.md R200). -/
  | reset
  /-- `ADD_BYTE b` (40_receiver.md R100). -/
  | addByte (b : Byte)
  /-- `RX_NOP` (R109). -/
  | rxNop
  /-- `BLD_NOP` (41_builder.md R124). -/
  | bldNop
  /-- `BUILD_CMD payload` (R120); P is the payload's length. -/
  | buildCmd (payload : List Byte)
  /-- `BUILD_DATA addr, payload` (R121). -/
  | buildData (addr : Addr) (payload : List Byte)
  /-- The reserved builder request `bld_op = 0b11` (R89, R125). -/
  | bldReserved
  /-- `RX_READ buf, i` (44_readout.md R161). -/
  | rxRead (buf : BufId) (i : Half)
  /-- `TX_READ i` (R162). -/
  | txRead (i : Half)
  /-- `TX_LEN` (R162). -/
  | txLen
  /-- `ERROR_COUNT` (R160). -/
  | errorCount
  /-- `FRAME.GENERIC` (R71): N bytes at indexes 3..N+2 and the checksum byte. -/
  | frameGeneric (body : List Byte) (ck : Byte)
  /-- `FRAME.AT_COMMAND` (R75): byte 4, and the bytes from index 5 to the end. -/
  | frameAtCommand (id : Byte) (rest : List Byte)
  /-- `FRAME.TRANSMIT_REQUEST` (R76): byte 4, bytes 5..12, and the bytes from index 17 to the end. -/
  | frameTransmitRequest (id : Byte) (addr : Addr) (rest : List Byte)
  /-- `FRAME.AT_RESPONSE` (R77): the bytes from index 4 to the end, without structure. -/
  | frameAtResponse (rest : List Byte)
  /-- `FRAME.MODEM_STATUS` (R77). -/
  | frameModemStatus (rest : List Byte)
  /-- `FRAME.TRANSMIT_STATUS` (R77). -/
  | frameTransmitStatus (rest : List Byte)
  /-- `FRAME.RECEIVE_PACKET` (R77). -/
  | frameReceivePacket (rest : List Byte)
deriving DecidableEq, Repr

end Sys2Proof
end

