-- ==== Sys2Proof/Machine/Operands.lean ====
section
/-! DEFINITION. Machine/Operands.lean: operand assembly and the byte layout of frames (spec/30_encoding.md R71 to R77,
R82, R84, R87): splitting and joining big-endian fields, the payload bus, the buffer numbers. Pure functions, no state.
-/

namespace Sys2Proof.Machine

/-- v[15:8] of a 16-bit field (R72). -/
def hiByte (n : Nat) : Byte := BitVec.ofNat 8 (n / 256)

/-- v[7:0] of a 16-bit field (R72). -/
def loByte (n : Nat) : Byte := BitVec.ofNat 8 n

/-- `N = zext_16(byte1) * 256 + zext_16(byte2)`, a natural number in 0..65535 (R72, R24). -/
def lengthField (hi lo : Byte) : Nat := hi.toNat * 256 + lo.toNat

/-- The address written into a data frame: 0, and only 0, is replaced by the broadcast address (R87). -/
def destAddr (a : Addr) : Addr := if a = 0#64 then Config.bcast else a

/-- The eight bytes of an address, big-endian: element k is `a[63-8*k : 56-8*k]` (R87, R52). -/
def addrBytes (a : Addr) : List Byte :=
  [a.extractLsb' 56 8, a.extractLsb' 48 8, a.extractLsb' 40 8, a.extractLsb' 32 8,
   a.extractLsb' 24 8, a.extractLsb' 16 8, a.extractLsb' 8 8, a.extractLsb' 0 8]

/-- The address whose big-endian bytes these are: the inverse of `addrBytes` (R52). -/
def joinAddr (b0 b1 b2 b3 b4 b5 b6 b7 : Byte) : Addr :=
  b0 ++ b1 ++ b2 ++ b3 ++ b4 ++ b5 ++ b6 ++ b7

/-- The payload bytes on the bus, read as one unsigned number: `payload[i] = bld_payload[8*i+7 : 8*i]` for i < P
(R82); what the bus holds at i >= P is ignored (R89). -/
def payloadOfBus : Nat → Nat → List Byte
  | 0, _ => []
  | p + 1, bus => BitVec.ofNat 8 bus :: payloadOfBus p (bus / 256)

/-- A bus value that carries this payload: zero beyond it (R82). -/
def busOfPayload : List Byte → Nat
  | [] => 0
  | b :: bs => b.toNat + 256 * busOfPayload bs

/-- The big-endian bytes of a number, `k` of them, the most significant first (opcode_table.json: "most significant bit
= first bit of byte 0"). -/
def bytesOfNat : Nat → Nat → List Byte
  | 0, _ => []
  | k + 1, w => bytesOfNat k (w / 256) ++ [BitVec.ofNat 8 w]

/-- `rxrd_buf` and `frame_buf` as a bit (R81, R84). -/
def bufBit : BufId → BitVec 1
  | .buf0 => 0#1
  | .buf1 => 1#1

/-- The buffer a bit names. -/
def bufOfBit (b : BitVec 1) : BufId := if b = 0#1 then .buf0 else .buf1

/-- `1 - rx_active` (10_state.md R25). -/
def otherBuf : BufId → BufId
  | .buf0 => .buf1
  | .buf1 => .buf0

/-- `RXBUF(k)` (00_scope.md R10). -/
def rxSpace : BufId → Space
  | .buf0 => .rxbuf0
  | .buf1 => .rxbuf1

/-- Element `i` of a byte sequence, for the checksum functions, which take a byte array and indexes (42_checksum.md
R140); they read no index beyond its end. -/
def byteAt (f : List Byte) (i : Nat) : Byte := f.getD i 0#8

/-- A frame given by its bytes from index 3 to the checksum: the start delimiter and the big-endian length field in
front (R71). N counts all those bytes but the checksum: "Total length = payload length field + 4". -/
def wireBytes (tail : List Byte) : List Byte :=
  Config.start :: hiByte (tail.length - 1) :: loByte (tail.length - 1) :: tail

/-- Bytes 3.. of a generic frame (R71): N uninterpreted bytes, then the checksum. -/
def genericTail (body : List Byte) (ck : Byte) : List Byte := body ++ [ck]

/-- Bytes 3.. of an AT-command frame (R75). -/
def atCommandTail (id : Byte) (rest : List Byte) : List Byte := Config.tAtCommand :: id :: rest

/-- Bytes 3.. of a transmit-request frame (R76). -/
def transmitRequestTail (id : Byte) (addr : Addr) (rest : List Byte) : List Byte :=
  Config.tTxRequest :: id :: (addrBytes addr ++
    Config.rsvdHi :: Config.rsvdLo :: Config.hopLimit :: Config.txOptions :: rest)

/-- Bytes 3.. of a frame of one of the four types without a layout (R77). -/
def plainTail (type : Byte) (rest : List Byte) : List Byte := type :: rest

end Sys2Proof.Machine
end

