-- ==== Sys2Proof/WellFormed.lean ====
section
/-! DEFINITION. WellFormed.lean: which operations the encodings of spec/30_encoding.md can express: P fits `bld_plen`
(R82), N fits the 16-bit length field (R72), and a generic frame is one that no more specific row describes. -/

namespace Sys2Proof

/-- The largest value of a 16-bit length field (R72, R82). -/
abbrev maxLength : Nat := 65535

/-- Whether the bytes of a frame from index 3 on begin with the pattern of one of the six typed rows of the opcode
table (R73; the data row also fixes the bytes at indexes 13..16, R76). -/
def tailIsTyped (tail : List Byte) : Bool :=
  match tail with
  | [] => false
  | t :: r =>
    t == Config.tAtResponse || t == Config.tModemStatus || t == Config.tTxStatus || t == Config.tRxPacket
    || (t == Config.tAtCommand && !r.isEmpty)
    || (t == Config.tTxRequest &&
        (r.drop 9).take 4 == [Config.rsvdHi, Config.rsvdLo, Config.hopLimit, Config.txOptions])

/-- The operands the encodings can hold. -/
def Instr.wellFormed : Instr → Bool
  | .reset => true
  | .addByte _ => true
  | .rxNop => true
  | .bldNop => true
  | .buildCmd payload => decide (payload.length ≤ maxLength)
  | .buildData _ payload => decide (payload.length ≤ maxLength)
  | .bldReserved => true
  | .rxRead _ _ => true
  | .txRead _ => true
  | .txLen => true
  | .errorCount => true
  | .frameGeneric body ck => decide (body.length ≤ maxLength) && !tailIsTyped (body ++ [ck])
  | .frameAtCommand _ rest => decide (rest.length + 1 ≤ maxLength)
  | .frameTransmitRequest _ _ rest => decide (rest.length + 13 ≤ maxLength)
  | .frameAtResponse rest => decide (rest.length ≤ maxLength)
  | .frameModemStatus rest => decide (rest.length ≤ maxLength)
  | .frameTransmitStatus rest => decide (rest.length ≤ maxLength)
  | .frameReceivePacket rest => decide (rest.length ≤ maxLength)

end Sys2Proof
end

