-- ==== Sys2Proof/Decode.lean ====
section
/-! DEFINITION. Decode.lean: from the words at the block's ports (spec/30_encoding.md R80 to R85) and from frames on the
wire (R71 to R79) to operations, total, rejecting by name; then the encoder, written from the same tables; then the
opcode table's own numbering of the words. -/

namespace Sys2Proof

open Machine

/-- The word that selects an operation, at the port it stands on (R85). -/
inductive PortWord where
  /-- `rst` (R80). -/
  | rst (w : BitVec 1)
  /-- `RXW[8:0] = (rx_valid, rx_data[7:0])` (R81). -/
  | rxw (w : BitVec 9)
  /-- `bld_op`, `bld_addr`, `bld_plen` and the payload bus read as one number (R82). -/
  | bld (op : BitVec 2) (addr : Addr) (plen : Half) (payload : Nat)
  /-- `(rxrd_buf, rxrd_idx[15:0])` (R84). -/
  | rxrd (w : BitVec 17)
  /-- `txrd_idx[15:0]` (R84). -/
  | txrd (w : BitVec 16)
  /-- The output `tx_len_o`, which has no input (R84). -/
  | txLenPort
  /-- The output `err_count_o`, which has no input (R84). -/
  | errCountPort
  /-- One whole frame on the wire (R71). -/
  | wire (bytes : List Byte)
deriving DecidableEq, Repr

/-- Why words are rejected. -/
inductive Reject where
  /-- `rst` = 0 asks for no reset (R85). -/
  | noResetRequested
  /-- Byte 0 of a frame is not 0x7E (R71, R79). -/
  | noStartDelimiter
  /-- Fewer than N + 4 bytes (R79). -/
  | frameTooShort
  /-- More than N + 4 bytes: the frame ends at index N + 3 (R79). -/
  | bytesAfterFrame
deriving DecidableEq, Repr

/-- `rx_valid` = RXW[8], `rx_data` = RXW[7:0], ignored when `rx_valid` is 0 (R81). -/
def decodeRxw (w : BitVec 9) : Instr :=
  if w.extractLsb' 8 1 = 1#1 then .addByte (w.extractLsb' 0 8) else .rxNop

/-- The four values of `bld_op` (R82, R85, R89). -/
def decodeBld (op : BitVec 2) (addr : Addr) (plen : Half) (payload : Nat) : Instr :=
  if op = 0b00#2 then .bldNop
  else if op = 0b01#2 then .buildCmd (payloadOfBus plen.toNat payload)
  else if op = 0b10#2 then .buildData addr (payloadOfBus plen.toNat payload)
  else .bldReserved

/-- `rxrd_buf` is bit 16, `rxrd_idx` bits 15:0 (R84). -/
def decodeRxrd (w : BitVec 17) : Instr := .rxRead (bufOfBit (w.extractLsb' 16 1)) (w.extractLsb' 0 16)

/-- The generic row: the last byte is the checksum (R71). -/
def genericOfTail (tail : List Byte) : Instr := .frameGeneric tail.dropLast (tail.getLastD 0#8)

/-- The frame whose bytes from index 3 on are `tail`: the row of the opcode table whose pattern its bytes have, the
generic row otherwise (R73, R75 to R77; log entry 7). -/
def decodeTail (tail : List Byte) : Instr :=
  match tail with
  | [] => genericOfTail tail
  | t :: r =>
    if t = Config.tAtResponse then .frameAtResponse r
    else if t = Config.tModemStatus then .frameModemStatus r
    else if t = Config.tTxStatus then .frameTransmitStatus r
    else if t = Config.tRxPacket then .frameReceivePacket r
    else if t = Config.tAtCommand then
      match r with
      | [] => genericOfTail tail
      | id :: rest => .frameAtCommand id rest
    else if t = Config.tTxRequest then
      match r with
      | id :: b0 :: b1 :: b2 :: b3 :: b4 :: b5 :: b6 :: b7 :: rh :: rl :: hop :: opt :: rest =>
        if rh = Config.rsvdHi ∧ rl = Config.rsvdLo ∧ hop = Config.hopLimit ∧ opt = Config.txOptions then
          .frameTransmitRequest id (joinAddr b0 b1 b2 b3 b4 b5 b6 b7) rest
        else genericOfTail tail
      | _ => genericOfTail tail
    else genericOfTail tail

/-- A frame on the wire: byte 0 must be 0x7E, bytes 1 and 2 give N, and the frame ends at index N + 3 (R79). -/
def decodeWire (bytes : List Byte) : Except Reject Instr :=
  match bytes with
  | [] => .error .frameTooShort
  | b0 :: more =>
    if b0 ≠ Config.start then .error .noStartDelimiter
    else match more with
      | hi :: lo :: tail =>
        if tail.length < lengthField hi lo + 1 then .error .frameTooShort
        else if lengthField hi lo + 1 < tail.length then .error .bytesAfterFrame
        else .ok (decodeTail tail)
      | _ => .error .frameTooShort

/-- The decoder: total on the words of every port (R85). -/
def decode : PortWord → Except Reject Instr
  | .rst w => if w = 1#1 then .ok .reset else .error .noResetRequested
  | .rxw w => .ok (decodeRxw w)
  | .bld op addr plen payload => .ok (decodeBld op addr plen payload)
  | .rxrd w => .ok (decodeRxrd w)
  | .txrd w => .ok (.txRead w)
  | .txLenPort => .ok .txLen
  | .errCountPort => .ok .errorCount
  | .wire bytes => decodeWire bytes

/-- The encoder: the word of an operation at its port (R81 to R85) or the bytes of its frame (R71 to R77). A field the
operation ignores (R89) is written 0. -/
def encode : Instr → PortWord
  | .reset => .rst 1#1
  | .addByte b => .rxw (1#1 ++ b)
  | .rxNop => .rxw (0#1 ++ 0#8)
  | .bldNop => .bld 0b00#2 0#64 0#16 0
  | .buildCmd payload => .bld 0b01#2 0#64 (BitVec.ofNat 16 payload.length) (busOfPayload payload)
  | .buildData addr payload => .bld 0b10#2 addr (BitVec.ofNat 16 payload.length) (busOfPayload payload)
  | .bldReserved => .bld 0b11#2 0#64 0#16 0
  | .rxRead buf i => .rxrd (bufBit buf ++ i)
  | .txRead i => .txrd i
  | .txLen => .txLenPort
  | .errorCount => .errCountPort
  | .frameGeneric body ck => .wire (wireBytes (genericTail body ck))
  | .frameAtCommand id rest => .wire (wireBytes (atCommandTail id rest))
  | .frameTransmitRequest id addr rest => .wire (wireBytes (transmitRequestTail id addr rest))
  | .frameAtResponse rest => .wire (wireBytes (plainTail Config.tAtResponse rest))
  | .frameModemStatus rest => .wire (wireBytes (plainTail Config.tModemStatus rest))
  | .frameTransmitStatus rest => .wire (wireBytes (plainTail Config.tTxStatus rest))
  | .frameReceivePacket rest => .wire (wireBytes (plainTail Config.tRxPacket rest))

/-- The bytes of a table word on the wire, followed by the zero bytes that complete its N + 4 bytes: "every bit the
instruction has above" the table's bits is 0. -/
def completeFrame (bytes : List Byte) : List Byte :=
  match bytes with
  | [b0, hi, lo] => b0 :: hi :: lo :: 0#8 :: List.replicate (lengthField hi lo) 0#8
  | _ :: hi :: lo :: _ => bytes ++ List.replicate (lengthField hi lo + 4 - bytes.length) 0#8
  | _ => bytes

/-- The port on which a word of `nbits` bits of spec/opcode_table.json stands. The table numbers each port's word by
itself, so words of different ports can have the same width and value; log entry 9 says which port is taken. Frames are
numbered with the first byte most significant. -/
def tableWord (nbits w : Nat) : PortWord :=
  if nbits = 0 then .txLenPort
  else if nbits = 1 ∧ w < 2 then .rst (BitVec.ofNat 1 w)
  else if nbits ≤ 8 ∧ w < 4 then .bld (BitVec.ofNat 2 w) 0#64 0#16 0
  else if 8 < nbits ∧ nbits ≤ 16 ∧ w < 512 then .rxw (BitVec.ofNat 9 w)
  else if 8 < nbits ∧ nbits ≤ 16 ∧ w < 65536 then .txrd (BitVec.ofNat 16 w)
  else if 16 < nbits ∧ nbits ≤ 24 ∧ w < 131072 then .rxrd (BitVec.ofNat 17 w)
  else .wire (completeFrame (bytesOfNat ((nbits + 7) / 8) w))

/-- The operation the decoder reads from a word numbered as spec/opcode_table.json numbers it. -/
def decodeTableWord (nbits w : Nat) : Option Instr :=
  match decode (tableWord nbits w) with
  | .ok i => some i
  | .error _ => none

end Sys2Proof
end

