-- ==== Sys2Proof/Machine/State.lean ====
section
/-! DEFINITION. Machine/State.lean: the state of one block instance (spec/10_state.md R20), the requests and results at
its ports (spec/30_encoding.md R80 to R84), the reasons a step can stop, and the state after reset (R34). -/

namespace Sys2Proof.Machine

/-- A buffer space: the bytes written since the last reset, by index, indexes strictly rising. An index that is not
listed has no value of its own: it reads as the free value `Config.unspecifiedByte` (10_state.md R35; log entry 3). -/
abbrev Memory := List Host.Cell

/-- The inputs of one rising edge of `clk` (R80 to R84): what the host drives on every port. -/
structure Pins where
  /-- `rst` (R80). -/
  rst : Bool
  /-- `RXW[8:0]` (R81). -/
  rxw : BitVec 9
  /-- `bld_op` (R82). -/
  bldOp : BitVec 2
  /-- `bld_addr` (R82). -/
  bldAddr : Addr
  /-- `bld_plen` (R82). -/
  bldPlen : Half
  /-- The payload bus `bld_payload`, read as one unsigned number (R82; log entry 13). -/
  bldPayload : Nat
  /-- `(rxrd_buf, rxrd_idx)` (R84). -/
  rxrd : BitVec 17
  /-- `txrd_idx` (R84). -/
  txrd : BitVec 16
deriving DecidableEq, Repr

/-- One entry of the host's trace: the ports at one edge, or bytes fed one after another (the pseudo-operation FEED of
R91, which is how the frame rows of the opcode table are presented; log entries 4 and 6). -/
inductive Input where
  | edge (p : Pins)
  | feed (bytes : List Byte)
deriving DecidableEq, Repr

/-- What `ADD_BYTE` returns for a completed frame: (`frame_buf`, `frame_len`) (R81). -/
structure Handle where
  buf : BufId
  len : Half
deriving DecidableEq, Repr

/-- `none` or a handle (R81, R100). -/
abbrev RxResult := Option Handle

/-- `bld_status` by name (R83). -/
inductive BldStatus where
  | idle
  | ok
  | capacityExceeded
deriving DecidableEq, Repr

/-- The results sampled at the last step: the model's own record, since the block keeps none (10_state.md R31; log
entry 5). -/
structure Outputs where
  /-- The receiver's results, one per edge of the step, oldest first (R81; the list of results of a FEED, R91). -/
  rx : List RxResult
  /-- The builder's result (R83). -/
  bld : BldStatus
  /-- `rxrd_data`, if the step sampled it (R84). -/
  rxrdData : Option Byte
  /-- `txrd_data`, if the step sampled it (R84). -/
  txrdData : Option Byte
  /-- `tx_len_o`, if the step sampled it (R84). -/
  txLenO : Option Half
  /-- `err_count_o`, if the step sampled it (R84). -/
  errCountO : Option Byte
deriving DecidableEq, Repr

/-- The outputs when nothing has been asked: `none` at the receiver, `NONE` at the builder. -/
def Outputs.quiet : Outputs := ⟨[], .idle, none, none, none, none⟩

/-- The state: the seven items of 10_state.md R20 (the buffer pair is two fields), and the model's own `cap`, `epoch`,
`inputs` and `out` (log entries 1, 2, 4, 5). -/
structure State where
  /-- The parameter CAP (00_scope.md R6, U3): fixed for a machine, written by no step; log entry 1. -/
  cap : Nat
  /-- How many resets have been performed: selects the free values of unspecified bytes (R35); log entry 2. -/
  epoch : Nat
  /-- `rx_buf[0]` (R26). -/
  rxBuf0 : Memory
  /-- `rx_buf[1]` (R26). -/
  rxBuf1 : Memory
  /-- `rx_len` (R22). -/
  rxLen : Half
  /-- `rx_active` (R25). -/
  rxActive : BufId
  /-- `err_count` (R27). -/
  errCount : Byte
  /-- `tx_buf` (R29). -/
  txBuf : Memory
  /-- `tx_len` (R29). -/
  txLen : Half
  /-- `seq_last` (R28). -/
  seqLast : Byte
  /-- The requests the host has yet to present, oldest first (R90, R188); log entry 4. -/
  inputs : List Input
  /-- The results sampled at the last step; log entry 5. -/
  out : Outputs
deriving DecidableEq, Repr

/-- The reasons the machine stops with a fault. -/
inductive Fault where
  /-- A write to a buffer space at an index of CAP or more, which is outside every space (20_memory.md R57). Raised by
  `memWrite`, called by ADD_BYTE's store and so by the frame rows. Safe: no state that meets the invariant `BlockInv`
  reaches it (R103). -/
  | outOfSpace (space : Space) (index : Nat)
deriving DecidableEq, Repr

/-- The reasons the model gives a step no meaning: none is raised, since every row has its meaning and every entry of the
trace its effect (60_exceptions.md R188). -/
inductive Refusal where
  /-- No meaning yet, by the row's mnemonic: for refused arms of `exec`, of which there are none. Safe. -/
  | notModelled (mnemonic : String)
deriving DecidableEq, Repr

/-- The state after RESET (10_state.md R34; log entry 17): every register 0, the buffer contents unspecified; no request queued and no
result sampled. -/
def State.reset : State where
  cap := Config.defaultCap
  epoch := 0
  rxBuf0 := []
  rxBuf1 := []
  rxLen := 0#16
  rxActive := .buf0
  errCount := 0#8
  txBuf := []
  txLen := 0#16
  seqLast := 0#8
  inputs := []
  out := Outputs.quiet

end Sys2Proof.Machine
end

