-- ==== Sys2Proof/Machine/Flags.lean ====
section
/-! DEFINITION. Machine/Flags.lean: the block has no flags or condition codes (spec/10_state.md R31). What stands here
is what takes their place: the saturating error count (60_exceptions.md R176), and the result words at the ports
(30_encoding.md R81, R83). -/

namespace Sys2Proof.Machine

/-- `sat_inc(c) = if c == 255 then 255 else c + 1` (R176). -/
def satInc (c : Byte) : Byte := if c = Config.errMax then Config.errMax else c + 1#8

/-- `RXR[17:0] = (frame_valid, frame_buf, frame_len[15:0])`, all 0 when there is no handle (R81, R108). -/
def rxrWord : RxResult → BitVec 18
  | none => 0#18
  | some h => 1#1 ++ bufBit h.buf ++ h.len

/-- The code of `bld_status`; 0b11 is never produced (R83). -/
def bldStatusCode : BldStatus → BitVec 2
  | .idle => 0b00#2
  | .ok => 0b01#2
  | .capacityExceeded => 0b10#2

end Sys2Proof.Machine
end

