-- ==== Sys2Proof/Machine/Ops.lean ====
section
/-! DEFINITION. Machine/Ops.lean: the named operations over the buffer spaces and registers, the sampling of results,
and the receiver's local recovery, which is this block's counterpart of taking an exception (spec/60_exceptions.md
R175). -/

namespace Sys2Proof.Machine

/-- Go on with `f` where an outcome is a next state. -/
def andThen (o : Host.Outcome State Fault Refusal) (f : State → Host.Outcome State Fault Refusal) :
    Host.Outcome State Fault Refusal :=
  match o with
  | .next s => f s
  | .fault r => .fault r
  | .refused r => .refused r

/-- The byte written at an index, if one has been written since the last reset. -/
def Memory.lookup : Memory → Nat → Option Byte
  | [], _ => none
  | (a, v) :: m, i => if a = i then some v else Memory.lookup m i

/-- The memory with a byte written at an index; the indexes stay strictly rising. -/
def Memory.insert : Memory → Nat → Byte → Memory
  | [], i, v => [(i, v)]
  | (a, w) :: m, i, v =>
    if i < a then (i, v) :: (a, w) :: m
    else if i = a then (i, v) :: m
    else (a, w) :: Memory.insert m i v

/-- The memory with bytes written at consecutive indexes from `i` on. -/
def Memory.insertAll : Memory → Nat → List Byte → Memory
  | m, _, [] => m
  | m, i, b :: bs => Memory.insertAll (Memory.insert m i b) (i + 1) bs

/-- The canonical form: indexes strictly rising. No entry can be what an unlisted index reads as, since an unlisted
index has no value (log entry 3). -/
abbrev Memory.wf (m : Memory) : Prop := m.Pairwise (fun a b => a.1 < b.1)

/-- Every listed index is an index of a space of `n` bytes (20_memory.md R50). -/
abbrev Memory.below (m : Memory) (n : Nat) : Prop := ∀ c ∈ m, c.1 < n

/-- The contents of a buffer space (20_memory.md R50). -/
def State.mem (s : State) : Space → Memory
  | .rxbuf0 => s.rxBuf0
  | .rxbuf1 => s.rxBuf1
  | .txbuf => s.txBuf

/-- The state with other contents in one buffer space. -/
def State.setMem (s : State) (sp : Space) (m : Memory) : State :=
  match sp with
  | .rxbuf0 => { s with rxBuf0 := m }
  | .rxbuf1 => { s with rxBuf1 := m }
  | .txbuf => { s with txBuf := m }

/-- `MemRead(space, i, 1)` (00_scope.md R10): the byte last written there, or the unspecified byte that the space holds
there since the last reset (10_state.md R35). -/
def memRead (sp : Space) (i : Nat) (s : State) : Byte :=
  (Memory.lookup (s.mem sp) i).getD (Config.unspecifiedByte s.epoch sp i)

/-- `MemWrite(space, i, 1, v)` (R10), for an index of the space; an index of CAP or more is outside every space (R57).
-/
def memWrite (sp : Space) (i : Nat) (v : Byte) (s : State) : Host.Outcome State Fault Refusal :=
  if i < s.cap then .next (s.setMem sp (Memory.insert (s.mem sp) i v)) else .fault (.outOfSpace sp i)

/-- The space ADD_BYTE writes: `RXBUF(rx_active)` (R25). -/
def activeSpace (s : State) : Space := rxSpace s.rxActive

/-- `n` bytes of a space from index 0 on, in index order (the bytes of a frame). -/
def readBytes (sp : Space) (n : Nat) (s : State) : List Byte := (List.range n).map (fun i => memRead sp i s)

/-- The receiver's result at this edge (R81). -/
def State.setRx (s : State) (r : List RxResult) : State := { s with out := { s.out with rx := r } }

/-- The builder's result at this edge (R83). -/
def State.setBld (s : State) (b : BldStatus) : State := { s with out := { s.out with bld := b } }

/-- `rxrd_data` sampled (R84). -/
def State.setRxrdData (s : State) (b : Byte) : State := { s with out := { s.out with rxrdData := some b } }

/-- `txrd_data` sampled (R84). -/
def State.setTxrdData (s : State) (b : Byte) : State := { s with out := { s.out with txrdData := some b } }

/-- `tx_len_o` sampled (R84). -/
def State.setTxLenO (s : State) (n : Half) : State := { s with out := { s.out with txLenO := some n } }

/-- `err_count_o` sampled (R84). -/
def State.setErrCountO (s : State) (c : Byte) : State := { s with out := { s.out with errCountO := some c } }

/-- The outputs before a step has driven them. -/
def State.clearOut (s : State) : State := { s with out := Outputs.quiet }

/-- The state with the rest of the host's trace. -/
def State.setInputs (s : State) (rest : List Input) : State := { s with inputs := rest }

/-- `rx_len <- n`. -/
def State.setRxLen (s : State) (n : Half) : State := { s with rxLen := n }

/-- The errors the receiver recovers from, E1 to E3 (R170). No port carries which one it was. -/
inductive RxError where
  | desync
  | overflow
  | checksumMismatch
deriving DecidableEq, Repr

/-- `raise X()` (R175): `rx_len <- 0`, `err_count <- sat_inc(err_count)`, result none, and nothing else: nothing is
saved, no handler is entered, and there is no return operation. The recovery is the same for the three errors. -/
def raiseError (_e : RxError) (s : State) : State :=
  ({ s with rxLen := 0#16, errCount := satInc s.errCount } : State).setRx [none]

/-- `return CapacityExceeded` (R174): the result, and no other change at all. -/
def failBuild (s : State) : State := s.setBld .capacityExceeded

end Sys2Proof.Machine
end

