-- ==== Sys2Proof/Machine/Checksum.lean ====
section
/-! DEFINITION. Machine/Checksum.lean: the unit checksum_validator (spec/42_checksum.md R140 to R144), pure functions of
a byte array given as a function of the index. -/

namespace Sys2Proof.Machine

/-- `CHK_SUM(f, lo, hi) = (f[lo] + ... + f[hi]) mod 256`, 0 when hi < lo (R140): an 8-bit sum that drops its carry. -/
def chkSum (f : Nat → Byte) (lo hi : Nat) : Byte :=
  (List.range' lo (hi + 1 - lo)).foldr (fun i acc => f i + acc) 0#8

/-- `CHK_COMPUTE(f, L) = 0xFF - CHK_SUM(f, 3, L - 2)` (R141). -/
def chkCompute (f : Nat → Byte) (len : Nat) : Byte := Config.ckTarget - chkSum f 3 (len - 2)

/-- `CHK_VERIFY(f, L) = (CHK_SUM(f, 3, L - 1) == 0xFF)` (R142). -/
def chkVerify (f : Nat → Byte) (len : Nat) : Bool := chkSum f 3 (len - 1) == Config.ckTarget

end Sys2Proof.Machine
end

