-- ==== Sys2Proof/Machine/Sequencer.lean ====
section
/-! DEFINITION. Machine/Sequencer.lean: the unit frame_id_sequencer (spec/43_sequencer.md R150 to R153). -/

namespace Sys2Proof.Machine

/-- The id after `last`: 1 after 255, `last + 1` otherwise (R150). -/
def nextId (last : Byte) : Byte := if last = Config.idMax then Config.idMin else last + 1#8

/-- `SEQ_NEXT()`: the id returned, and the state with `seq_last` holding it (R150). -/
def seqNext (s : State) : Byte × State := (nextId s.seqLast, { s with seqLast := nextId s.seqLast })

end Sys2Proof.Machine
end

