-- ==== Sys2Proof/Machine/Builder.lean ====
section
/-! DEFINITION. Machine/Builder.lean: the unit frame_builder, BUILD_CMD, BUILD_DATA, BLD_NOP and the reserved request
(spec/41_builder.md R120 to R128; layouts 30_encoding.md R75, R76). -/

namespace Sys2Proof.Machine

/-- The frame with its checksum appended: `f[L-1] <- CHK_COMPUTE(f, L)` (R120, R121). -/
def sealFrame (f : List Byte) : List Byte := f ++ [chkCompute (byteAt f) (f.length + 1)]

/-- The AT-command frame for an id and a payload (R75, R120). -/
def cmdFrame (id : Byte) (payload : List Byte) : List Byte :=
  sealFrame ([Config.start, hiByte (payload.length + Config.cmdHdr), loByte (payload.length + Config.cmdHdr),
    Config.tAtCommand, id] ++ payload)

/-- The transmit-request frame for an id, an address and a payload (R76, R121). -/
def dataFrame (id : Byte) (addr : Addr) (payload : List Byte) : List Byte :=
  sealFrame ([Config.start, hiByte (payload.length + Config.dataHdr), loByte (payload.length + Config.dataHdr),
    Config.tTxRequest, id] ++ addrBytes (destAddr addr)
    ++ [Config.rsvdHi, Config.rsvdLo, Config.hopLimit, Config.txOptions] ++ payload)

/-- A build of total length `len` (R122): the capacity check comes first, on natural numbers, and is all-or-nothing;
then the id is drawn, `TXBUF[0..L-1]` and `tx_len` are written, and the result is OK (R123). -/
def build (len : Nat) (frame : Byte → List Byte) (s : State) : Host.Outcome State Fault Refusal :=
  if s.cap < len then .next (failBuild s)
  else
    let drawn := seqNext s
    .next (({ drawn.2 with
      txBuf := Memory.insertAll s.txBuf 0 (frame drawn.1), txLen := BitVec.ofNat 16 len } : State).setBld .ok)

/-- `BUILD_CMD payload` (R120): L = P + 6. -/
def execBuildCmd (payload : List Byte) (s : State) : Host.Outcome State Fault Refusal :=
  build (payload.length + Config.cmdHdr + Config.overhead) (fun id => cmdFrame id payload) s

/-- `BUILD_DATA addr, payload` (R121): L = P + 18. -/
def execBuildData (addr : Addr) (payload : List Byte) (s : State) : Host.Outcome State Fault Refusal :=
  build (payload.length + Config.dataHdr + Config.overhead) (fun id => dataFrame id addr payload) s

/-- `BLD_NOP` (R124): no state changes, status NONE. -/
def execBldNop (s : State) : Host.Outcome State Fault Refusal := .next (s.setBld .idle)

/-- The reserved request `bld_op = 0b11` (R125): the block treats it as BLD_NOP (log entry 8). -/
def execBldReserved (s : State) : Host.Outcome State Fault Refusal := .next (s.setBld .idle)

end Sys2Proof.Machine
end

