-- ==== Sys2Proof/Machine/Readout.lean ====
section
/-! DEFINITION. Machine/Readout.lean: ERROR_COUNT, RX_READ, TX_READ, TX_LEN (spec/44_readout.md R160 to R164). Each
samples one output and changes nothing else. -/

namespace Sys2Proof.Machine

/-- A read port: the byte of the space, or 0x00 at an index of CAP or more (R161, R162). -/
def portRead (sp : Space) (i : Half) (s : State) : Byte := if i.toNat < s.cap then memRead sp i.toNat s else 0x00#8

/-- `RX_READ buf, i` (R161). -/
def execRxRead (buf : BufId) (i : Half) (s : State) : Host.Outcome State Fault Refusal :=
  .next (s.setRxrdData (portRead (rxSpace buf) i s))

/-- `TX_READ i` (R162). -/
def execTxRead (i : Half) (s : State) : Host.Outcome State Fault Refusal :=
  .next (s.setTxrdData (portRead .txbuf i s))

/-- `TX_LEN` (R162). -/
def execTxLen (s : State) : Host.Outcome State Fault Refusal := .next (s.setTxLenO s.txLen)

/-- `ERROR_COUNT` (R160). -/
def execErrorCount (s : State) : Host.Outcome State Fault Refusal := .next (s.setErrCountO s.errCount)

end Sys2Proof.Machine
end

