-- ==== Sys2Proof/Machine/Receiver.lean ====
section
/-! DEFINITION. Machine/Receiver.lean: the unit frame_receiver_fsm, ADD_BYTE and RX_NOP (spec/40_receiver.md R100 to
R110). -/

namespace Sys2Proof.Machine

/-- N of the frame in progress, from bytes 1 and 2 of the active buffer (R104, 10_state.md R24). -/
def frameN (s : State) : Nat := lengthField (memRead (activeSpace s) 1 s) (memRead (activeSpace s) 2 s)

/-- The receiver's state by the document's names (10_state.md R23). -/
inductive RxState where
  | idle
  | headerHi
  | headerLo
  | collecting
  | complete
deriving DecidableEq, Repr

/-- `rx_state` as a function of `rx_len` and N (R23): it is no register of its own. -/
def rxState (s : State) : RxState :=
  if s.rxLen.toNat = 0 then .idle
  else if s.rxLen.toNat = 1 then .headerHi
  else if s.rxLen.toNat = 2 then .headerLo
  else if s.rxLen.toNat < frameN s + 4 then .collecting
  else .complete

/-- The suggested code of a receiver state (R23, D17). -/
def rxStateCode : RxState → Nat
  | .idle => 0
  | .headerHi => 1
  | .headerLo => 2
  | .collecting => 3
  | .complete => 4

/-- Completion with a valid checksum, arm D (R105): the handle of the buffer just filled; `rx_len <- 0`; `rx_active`
toggles. -/
def completeFrameRx (s : State) : State :=
  ({ s with rxLen := 0#16, rxActive := otherBuf s.rxActive } : State).setRx
    [some { buf := s.rxActive, len := s.rxLen }]

/-- The tests of R100 after the store, in its order (R104 to R106). -/
def afterStore (s : State) : State :=
  if s.rxLen.toNat < 3 then s.setRx [none]
  else if s.rxLen.toNat ≠ frameN s + 4 then s.setRx [none]
  else if chkVerify (fun i => memRead (activeSpace s) i s) s.rxLen.toNat then completeFrameRx s
  else raiseError .checksumMismatch s

/-- The state right after `b` is stored, before the tests of R100 (R103), where `rx_len` is an index of the space. -/
def storedState (b : Byte) (s : State) : State :=
  (s.setMem (activeSpace s) (Memory.insert (s.mem (activeSpace s)) s.rxLen.toNat b)).setRxLen (s.rxLen + 1#16)

/-- `ADD_BYTE b` (R100): Overflow first, then Desync, then the store and the tests after it. -/
def execAddByte (b : Byte) (s : State) : Host.Outcome State Fault Refusal :=
  if s.rxLen.toNat = s.cap then .next (raiseError .overflow s)
  else if s.rxLen = 0#16 ∧ b ≠ Config.start then .next (raiseError .desync s)
  else andThen (memWrite (activeSpace s) s.rxLen.toNat b s)
    (fun t => .next (afterStore (t.setRxLen (t.rxLen + 1#16))))

/-- `RX_NOP` (R109): no state changes, result none. -/
def execRxNop (s : State) : Host.Outcome State Fault Refusal := .next (s.setRx [none])

/-- `FEED` (30_encoding.md R91): one ADD_BYTE per byte in the order written; the result is the list of the results. -/
def feed : List Byte → State → Host.Outcome State Fault Refusal
  | [], s => .next (s.setRx [])
  | b :: bs, s =>
    andThen (execAddByte b s) (fun t => andThen (feed bs t) (fun u => .next (u.setRx (t.out.rx ++ u.out.rx))))

end Sys2Proof.Machine
end

