-- ==== Sys2Proof/Machine/Reset.lean ====
section
/-! DEFINITION. Machine/Reset.lean: RESET (spec/70_reset_and_hazards.md R200). -/

namespace Sys2Proof.Machine

/-- The state after RESET (R200, 10_state.md R34): every register 0, the buffer contents unspecified anew. -/
def resetBlock (s : State) : State :=
  { s with
    epoch := s.epoch + 1, rxBuf0 := [], rxBuf1 := [], rxLen := 0#16, rxActive := .buf0, errCount := 0#8,
    txBuf := [], txLen := 0#16, seqLast := 0#8 }

/-- `RESET` (R200): "the results are `frame_valid` = 0 and `bld_status` = `NONE`". -/
def execReset (s : State) : Host.Outcome State Fault Refusal := .next (((resetBlock s).setRx [none]).setBld .idle)

end Sys2Proof.Machine
end

