-- ==== Sys2Proof/Machine/Wire.lean ====
section
/-! DEFINITION. Machine/Wire.lean: the frame rows of the opcode table as operations: each feeds the bytes of its frame to
the receiver (spec/30_encoding.md R71 to R79, R91; log entry 6). The receiver reads neither type nor id nor body (R88),
so the rows differ in their bytes alone. -/

namespace Sys2Proof.Machine

/-- `FRAME.GENERIC` (R71). -/
def execFrameGeneric (body : List Byte) (ck : Byte) (s : State) : Host.Outcome State Fault Refusal :=
  feed (wireBytes (genericTail body ck)) s

/-- `FRAME.AT_COMMAND` (R75). -/
def execFrameAtCommand (id : Byte) (rest : List Byte) (s : State) : Host.Outcome State Fault Refusal :=
  feed (wireBytes (atCommandTail id rest)) s

/-- `FRAME.TRANSMIT_REQUEST` (R76). -/
def execFrameTransmitRequest (id : Byte) (addr : Addr) (rest : List Byte) (s : State) :
    Host.Outcome State Fault Refusal :=
  feed (wireBytes (transmitRequestTail id addr rest)) s

/-- `FRAME.AT_RESPONSE` (R77). -/
def execFrameAtResponse (rest : List Byte) (s : State) : Host.Outcome State Fault Refusal :=
  feed (wireBytes (plainTail Config.tAtResponse rest)) s

/-- `FRAME.MODEM_STATUS` (R77). -/
def execFrameModemStatus (rest : List Byte) (s : State) : Host.Outcome State Fault Refusal :=
  feed (wireBytes (plainTail Config.tModemStatus rest)) s

/-- `FRAME.TRANSMIT_STATUS` (R77). -/
def execFrameTransmitStatus (rest : List Byte) (s : State) : Host.Outcome State Fault Refusal :=
  feed (wireBytes (plainTail Config.tTxStatus rest)) s

/-- `FRAME.RECEIVE_PACKET` (R77). -/
def execFrameReceivePacket (rest : List Byte) (s : State) : Host.Outcome State Fault Refusal :=
  feed (wireBytes (plainTail Config.tRxPacket rest)) s

end Sys2Proof.Machine
end

