-- ==== Sys2Proof/Machine/Dispatch.lean ====
section
/-! DEFINITION. Machine/Dispatch.lean: one arm per operation, each one call of its meaning. -/

namespace Sys2Proof.Machine

def exec (i : Instr) (s : State) : Host.Outcome State Fault Refusal :=
  match i with
  | .reset => Sys2Proof.Machine.execReset s
  | .addByte b => Sys2Proof.Machine.execAddByte b s
  | .rxNop => Sys2Proof.Machine.execRxNop s
  | .bldNop => Sys2Proof.Machine.execBldNop s
  | .buildCmd payload => Sys2Proof.Machine.execBuildCmd payload s
  | .buildData addr payload => Sys2Proof.Machine.execBuildData addr payload s
  | .bldReserved => Sys2Proof.Machine.execBldReserved s
  | .rxRead buf idx => Sys2Proof.Machine.execRxRead buf idx s
  | .txRead idx => Sys2Proof.Machine.execTxRead idx s
  | .txLen => Sys2Proof.Machine.execTxLen s
  | .errorCount => Sys2Proof.Machine.execErrorCount s
  | .frameGeneric body ck => Sys2Proof.Machine.execFrameGeneric body ck s
  | .frameAtCommand id rest => Sys2Proof.Machine.execFrameAtCommand id rest s
  | .frameTransmitRequest id addr rest => Sys2Proof.Machine.execFrameTransmitRequest id addr rest s
  | .frameAtResponse rest => Sys2Proof.Machine.execFrameAtResponse rest s
  | .frameModemStatus rest => Sys2Proof.Machine.execFrameModemStatus rest s
  | .frameTransmitStatus rest => Sys2Proof.Machine.execFrameTransmitStatus rest s
  | .frameReceivePacket rest => Sys2Proof.Machine.execFrameReceivePacket rest s

end Sys2Proof.Machine
end

