-- ==== Sys2Proof/Machine/Edge.lean ====
section
/-! DEFINITION. Machine/Edge.lean: what the block does at one rising edge (spec/30_encoding.md R80, R85), how a step
takes the next entry of the host's trace, and how a port word becomes an entry. -/

namespace Sys2Proof.Machine

/-- No request on any port (60_exceptions.md R186). The read ports have no no-operation and are always driven (R84), and
the spec does not say what their inputs carry at an edge whose line asks no read (R90 fixes the line's own port alone).
DESIGN CHOICE (log entry 18): buffer 0, index 0 and index 0, so the bytes there are what such an edge records. -/
def idlePins : Pins where
  rst := false
  rxw := 0#9
  bldOp := 0b00#2
  bldAddr := 0#64
  bldPlen := 0#16
  bldPayload := 0
  rxrd := 0#17
  txrd := 0#16

/-- The read ports, sampled on the state before the operations of the edge (44_readout.md R164), whatever the other
ports ask (R85; log entry 10). -/
def sampleReads (p : Pins) (s : State) : Host.Outcome State Fault Refusal :=
  andThen (exec (decodeRxrd p.rxrd) s) fun s1 =>
  andThen (exec (.txRead p.txrd) s1) fun s2 =>
  andThen (exec .txLen s2) fun s3 =>
  exec .errorCount s3

/-- The receiver's operation, chosen by RXW (R81, R85). -/
def receiverOp (p : Pins) (s : State) : Host.Outcome State Fault Refusal := exec (decodeRxw p.rxw) s

/-- The builder's operation, chosen by `bld_op` (R82, R85). -/
def builderOp (p : Pins) (s : State) : Host.Outcome State Fault Refusal :=
  exec (decodeBld p.bldOp p.bldAddr p.bldPlen p.bldPayload) s

/-- The request ports: RESET and nothing else when `rst` is 1, otherwise one receiver operation and one builder
operation (R85), the receiver's first (they commute, 20_memory.md R59; log entry 15). -/
def requestOps (p : Pins) (s : State) : Host.Outcome State Fault Refusal :=
  if p.rst then exec .reset s else andThen (receiverOp p s) (builderOp p)

/-- One rising edge (R80, R85). -/
def edge (p : Pins) (s : State) : Host.Outcome State Fault Refusal :=
  andThen (sampleReads p s.clearOut) (requestOps p)

/-- Bytes fed in one step: one whole frame is the frame row it decodes to; any other bytes are the FEED of R91 itself,
one ADD_BYTE a byte (a frame in part, two frames, stray bytes). -/
def runBytes (bytes : List Byte) (s : State) : Host.Outcome State Fault Refusal :=
  match decode (.wire bytes) with
  | .ok i => exec i s
  | .error _ => feed bytes s

/-- The next entry of the host's trace, run: one edge, or the edges of a FEED. -/
def runInput (x : Input) (s : State) : Host.Outcome State Fault Refusal :=
  match x with
  | .edge p => edge p s
  | .feed bytes => runBytes bytes s.clearOut

/-- Fetch and run: when the trace has ended the block does nothing and keeps all its state (R186, R188). -/
def runNext (s : State) : Host.Outcome State Fault Refusal :=
  match s.inputs with
  | [] => edge idlePins s
  | x :: rest => runInput x (s.setInputs rest)

/-- The entry that presents a port word, the other ports idle (R90: "the other port performs its no-operation"). -/
def inputOfWord : PortWord → Input
  | .rst w => .edge { idlePins with rst := w == 1#1 }
  | .rxw w => .edge { idlePins with rxw := w }
  | .bld op addr plen payload =>
    .edge { idlePins with bldOp := op, bldAddr := addr, bldPlen := plen, bldPayload := payload }
  | .rxrd w => .edge { idlePins with rxrd := w }
  | .txrd w => .edge { idlePins with txrd := w }
  | .txLenPort => .edge idlePins
  | .errCountPort => .edge idlePins
  | .wire bytes => .feed bytes

end Sys2Proof.Machine
end

