-- ==== Sys2Proof/Machine/Step.lean ====
section
/-! DEFINITION. Machine/Step.lean: one step of the machine, and where a word stands so that the next step runs it. -/

namespace Sys2Proof.Machine

/-- One step: the next entry of the host's trace (spec/00_scope.md R9, spec/30_encoding.md R85). -/
def step (s : State) : Host.Outcome State Fault Refusal := runNext s

/-- `s` with a word of the opcode table at the head of the host's trace, the other ports idle (log entry 4). -/
def State.withFetchWord (s : State) (nbits w : Nat) : State :=
  s.setInputs (inputOfWord (tableWord nbits w) :: s.inputs)

end Sys2Proof.Machine
end

