-- ==== Sys2Proof/Machine/Trace.lean ====
section
/-! DEFINITION. Machine/Trace.lean: the trace notation as data (spec/30_encoding.md R90, R91): each line is the request it
stands for, and the pseudo-operations are lists of lines. -/

namespace Sys2Proof.Machine

/-- A line of a trace (R90). -/
inductive TraceLine where
  /-- `RESET` -/
  | reset
  /-- `RX hh` -/
  | rx (b : Byte)
  /-- `IDLE` -/
  | idle
  /-- `CMD hh hh ...` -/
  | cmd (payload : List Byte)
  /-- `DATA aaaaaaaaaaaaaaaa : hh hh ...` -/
  | data (addr : Addr) (payload : List Byte)
  /-- `ERR?` -/
  | err
  /-- `RXRD k i` -/
  | rxrd (buf : BufId) (i : Half)
  /-- `TXRD i` -/
  | txrd (i : Half)
  /-- `TXLEN?` -/
  | txlen
deriving DecidableEq, Repr

/-- The request encoding of a line, the other port idle (R90). -/
def lineInput : TraceLine → Input
  | .reset => inputOfWord (encode .reset)
  | .rx b => inputOfWord (encode (.addByte b))
  | .idle => .edge idlePins
  | .cmd payload => inputOfWord (encode (.buildCmd payload))
  | .data addr payload => inputOfWord (encode (.buildData addr payload))
  | .err => inputOfWord (encode .errorCount)
  | .rxrd buf i => inputOfWord (encode (.rxRead buf i))
  | .txrd i => inputOfWord (encode (.txRead i))
  | .txlen => inputOfWord (encode .txLen)

/-- `FEED hh hh ... hh` (R91). -/
def feedLines (bytes : List Byte) : List TraceLine := bytes.map .rx

/-- `FEED k * hh` (R91). -/
def feedRepeated (k : Nat) (b : Byte) : List TraceLine := List.replicate k (.rx b)

/-- `REPEAT k` of the enclosed lines (R91). -/
def repeatLines (k : Nat) (lines : List TraceLine) : List TraceLine := (List.replicate k lines).flatten

/-- The bytes of the frame last built, `tx_buf[0..tx_len-1]` (10_state.md R29). -/
def txFrame (s : State) : List Byte := readBytes .txbuf s.txLen.toNat s

/-- `LOOPBACK` (R91): FEED of the frame last built, as it is at that point. -/
def loopbackLines (s : State) : List TraceLine := feedLines (txFrame s)

/-- Present these entries to the block, one a step. -/
def runInputs : List Input → State → Host.Outcome State Fault Refusal
  | [], s => .next s
  | x :: xs, s => andThen (runInput x s) (runInputs xs)

/-- Present the lines of a trace, one a step (R90). -/
def runTrace (lines : List TraceLine) (s : State) : Host.Outcome State Fault Refusal :=
  runInputs (lines.map lineInput) s

end Sys2Proof.Machine
end

