-- ==== Sys2Proof/Safety.lean ====
section
/-! DEFINITION. Safety.lean: what claims about the block are stated in: the invariant of spec/10_state.md R33, and the host's
duties the block does not enforce (70_reset_and_hazards.md R204, R212). -/

namespace Sys2Proof.Machine

/-- Every index below `n` of a space has been written since the last reset. -/
abbrev writtenBelow (s : State) (sp : Space) (n : Nat) : Prop := ∀ i < n, (Memory.lookup (s.mem sp) i).isSome

/-- The frame last built is a whole valid frame (R33 item 4, for `tx_len` not 0). -/
structure TxFrameOk (s : State) : Prop where
  sizeLow : 6 ≤ s.txLen.toNat
  sizeHigh : s.txLen.toNat ≤ s.cap
  written : writtenBelow s .txbuf s.txLen.toNat
  start : memRead .txbuf 0 s = Config.start
  length : lengthField (memRead .txbuf 1 s) (memRead .txbuf 2 s) + 4 = s.txLen.toNat
  type : memRead .txbuf 3 s = Config.tAtCommand ∨ memRead .txbuf 3 s = Config.tTxRequest
  id : memRead .txbuf 4 s = s.seqLast
  verifies : chkVerify (fun i => memRead .txbuf i s) s.txLen.toNat = true

/-- The invariant of 10_state.md R33, items 1 to 5, for any legal CAP, with the model's own form of the buffer spaces:
canonical, within their CAP bytes, and written where a frame in progress stands (R35). -/
structure BlockInv (s : State) : Prop where
  capLegal : Config.legalCap s.cap
  canonical : ∀ sp, Memory.wf (s.mem sp)
  inSpace : ∀ sp, Memory.below (s.mem sp) s.cap
  rxLenLe : s.rxLen.toNat ≤ s.cap
  rxWritten : writtenBelow s (activeSpace s) s.rxLen.toNat
  rxStart : 1 ≤ s.rxLen.toNat → memRead (activeSpace s) 0 s = Config.start
  rxInProgress : 3 ≤ s.rxLen.toNat → s.rxLen.toNat < frameN s + 4
  txFrame : s.txLen = 0#16 ∨ TxFrameOk s
  idIffBuilt : s.seqLast = 0#8 ↔ s.txLen = 0#16

/-- The host keeps its duty at the builder's port: it never presents `bld_op` = 0b11 (R212). -/
def hostKeepsBuilderDuty (x : Input) : Bool :=
  match x with
  | .edge p => p.rst || p.bldOp != 0b11#2
  | .feed _ => true

/-- Whether a byte read at an index of a space is one the host may rely on: written since reset, or an index of CAP or
more, where the port's 0x00 is no byte of a buffer (44_readout.md R161, R162). -/
def reliable (sp : Space) (i : Half) (s : State) : Bool :=
  decide (s.cap ≤ i.toNat) || (Memory.lookup (s.mem sp) i.toNat).isSome

/-- The host keeps its duty at the read ports: it relies on no byte the block has not written since reset (R212). The read
ports are always driven, and the spec does not say what it is to rely on a byte. DESIGN CHOICE (log entry 19): the host
says of each read port whether it uses the byte sampled at this edge (`usesRx`, `usesTx`), and only a byte used counts. -/
def hostKeepsReadDuty (usesRx usesTx : Bool) (p : Pins) (s : State) : Bool :=
  (!usesRx || reliable (rxSpace (bufOfBit (p.rxrd.extractLsb' 16 1))) (p.rxrd.extractLsb' 0 16) s)
    && (!usesTx || reliable .txbuf p.txrd s)

/-- Whether `ADD_BYTE b` stores into buffer `k`: it is the active one, there is room, and `b` is accepted (40_receiver.md
R101 to R103). -/
def storesInto (k : BufId) (b : Byte) (s : State) : Bool :=
  decide (s.rxActive = k) && decide (s.rxLen.toNat ≠ s.cap) && !decide (s.rxLen = 0#16 ∧ b ≠ Config.start)

/-- Whether any byte of a FEED is stored into buffer `k`. -/
def feedStoresInto (k : BufId) : List Byte → State → Bool
  | [], _ => false
  | b :: bs, s =>
    storesInto k b s || match execAddByte b s with
      | .next t => feedStoresInto k bs t
      | .fault _ => false
      | .refused _ => false

/-- Whether an entry of the trace ends the life of a frame in buffer `k`: a byte is stored there (20_memory.md R64), or
RESET leaves its contents unspecified (10_state.md R35; log entry 16). -/
def endsReading (k : BufId) (x : Input) (s : State) : Bool :=
  match x with
  | .edge p => p.rst || (p.rxw.extractLsb' 8 1 == 1#1 && storesInto k (p.rxw.extractLsb' 0 8) s)
  | .feed bytes => feedStoresInto k bytes s

/-- The contract of 70_reset_and_hazards.md R204 (20_memory.md R64; log entry 16): the caller that was given `h` may still
read its frame. `s` is the state right after the `ADD_BYTE` that returned `h`, and `since` is what the host has presented
after that byte, the rest of its FEED first. It speaks of the one frame returned at `s`: a later frame in the same buffer,
or a RESET, does not revive the handle. -/
def handleReadable (h : Handle) : (since : List Input) → (s : State) → Bool
  | [], _ => true
  | x :: xs, s =>
    !endsReading h.buf x s && match runInput x s with
      | .next t => handleReadable h xs t
      | .fault _ => false
      | .refused _ => false

/-- Whether an entry of the trace ends the life of the frame last built: the next build is presented
(70_reset_and_hazards.md R205), whether it succeeds or not, or RESET. -/
def endsSending (x : Input) : Bool :=
  match x with
  | .edge p => p.rst || p.bldOp == 0b01#2 || p.bldOp == 0b10#2
  | .feed _ => false

/-- The contract of R205 (20_memory.md R65; log entry 16): the transport may still read a built frame after the host has
presented `since` from the state right after the build. -/
def sendReadable (since : List Input) : Bool := !since.any endsSending

/-- The whole frame is in the receiver's reach: it fits CAP (R79), so feeding it ends in completion or in
`ChecksumMismatch`. `tail` is its bytes from index 3 on. -/
abbrev frameFits (tail : List Byte) (s : State) : Prop := 1 ≤ tail.length ∧ tail.length + 3 ≤ s.cap

/-- The sum of a frame's bytes from index 3 through the checksum is 0xFF, modulo 256 (R78). -/
def tailVerifies (tail : List Byte) : Bool := tail.foldr (fun b acc => b + acc) 0#8 == Config.ckTarget

/-- The bytes of a frame row from index 3 on; empty for a port operation. -/
def frameTail : Instr → List Byte
  | .frameGeneric body ck => genericTail body ck
  | .frameAtCommand id rest => atCommandTail id rest
  | .frameTransmitRequest id addr rest => transmitRequestTail id addr rest
  | .frameAtResponse rest => plainTail Config.tAtResponse rest
  | .frameModemStatus rest => plainTail Config.tModemStatus rest
  | .frameTransmitStatus rest => plainTail Config.tTxStatus rest
  | .frameReceivePacket rest => plainTail Config.tRxPacket rest
  | .reset => []
  | .addByte _ => []
  | .rxNop => []
  | .bldNop => []
  | .buildCmd _ => []
  | .buildData _ _ => []
  | .bldReserved => []
  | .rxRead _ _ => []
  | .txRead _ => []
  | .txLen => []
  | .errorCount => []

/-- The frame rows of the opcode table. -/
def isFrame (i : Instr) : Bool := !(frameTail i).isEmpty

/-- The two build operations. -/
def isBuild : Instr → Bool
  | .buildCmd _ => true
  | .buildData _ _ => true
  | .reset => false
  | .addByte _ => false
  | .rxNop => false
  | .bldNop => false
  | .bldReserved => false
  | .rxRead _ _ => false
  | .txRead _ => false
  | .txLen => false
  | .errorCount => false
  | .frameGeneric _ _ => false
  | .frameAtCommand _ _ => false
  | .frameTransmitRequest _ _ _ => false
  | .frameAtResponse _ => false
  | .frameModemStatus _ => false
  | .frameTransmitStatus _ => false
  | .frameReceivePacket _ => false

/-- The total length a build asks for (R120, R121); 0 for any other operation. -/
def buildLength : Instr → Nat
  | .buildCmd payload => payload.length + 6
  | .buildData _ payload => payload.length + 18
  | .reset => 0
  | .addByte _ => 0
  | .rxNop => 0
  | .bldNop => 0
  | .bldReserved => 0
  | .rxRead _ _ => 0
  | .txRead _ => 0
  | .txLen => 0
  | .errorCount => 0
  | .frameGeneric _ _ => 0
  | .frameAtCommand _ _ => 0
  | .frameTransmitRequest _ _ _ => 0
  | .frameAtResponse _ => 0
  | .frameModemStatus _ => 0
  | .frameTransmitStatus _ => 0
  | .frameReceivePacket _ => 0

/-- Operations performed one after another. -/
def execAll : List Instr → State → Host.Outcome State Fault Refusal
  | [], s => .next s
  | i :: is, s => andThen (exec i s) (execAll is)

/-- Whether `ADD_BYTE b` raises one of the receiver's errors in this state (R170 to R173): `Overflow`, `Desync`, or
`ChecksumMismatch` on the frame as it stands with `b` stored. -/
def raisesError (b : Byte) (s : State) : Bool :=
  if s.rxLen.toNat = s.cap then true
  else if s.rxLen = 0#16 then decide (b ≠ Config.start)
  else decide (3 ≤ s.rxLen.toNat + 1) && decide (s.rxLen.toNat + 1 = frameN (storedState b s) + 4)
    && !chkVerify (fun i => memRead (activeSpace s) i (storedState b s)) (s.rxLen.toNat + 1)

/-- How many of the ADD_BYTE operations of a FEED raise an error (44_readout.md R160). -/
def errorsFed : List Byte → State → Nat
  | [], _ => 0
  | b :: bs, s =>
    (if raisesError b s then 1 else 0) + match execAddByte b s with
      | .next t => errorsFed bs t
      | .fault _ => 0
      | .refused _ => 0

/-- The handles among the results of a FEED, in order. -/
def handlesOf (rs : List RxResult) : List Handle := rs.filterMap id

/-- The buffers of handles alternate, the first being `k` (40_receiver.md R105). -/
def alternatesFrom : BufId → List Handle → Prop
  | _, [] => True
  | k, h :: hs => h.buf = k ∧ alternatesFrom (otherBuf k) hs

/-- The seven items of 10_state.md R20 and the epoch are the same: all of the block's state, and which free values its
unwritten bytes have. -/
def sameBlock (s t : State) : Prop :=
  s.cap = t.cap ∧ s.epoch = t.epoch ∧ s.rxBuf0 = t.rxBuf0 ∧ s.rxBuf1 = t.rxBuf1 ∧ s.rxLen = t.rxLen ∧
  s.rxActive = t.rxActive ∧ s.errCount = t.errCount ∧ s.txBuf = t.txBuf ∧ s.txLen = t.txLen ∧ s.seqLast = t.seqLast

/-- What the receiver owns is the same (20_memory.md R59). -/
def sameReceiver (s t : State) : Prop :=
  s.rxBuf0 = t.rxBuf0 ∧ s.rxBuf1 = t.rxBuf1 ∧ s.rxLen = t.rxLen ∧ s.rxActive = t.rxActive ∧ s.errCount = t.errCount

/-- What the builder and the sequencer own is the same (R59). -/
def sameBuilder (s t : State) : Prop := s.txBuf = t.txBuf ∧ s.txLen = t.txLen ∧ s.seqLast = t.seqLast

/-- The same but for the results sampled. -/
def sameButOut (s t : State) : Prop := sameBlock s t ∧ s.inputs = t.inputs

/-- An outcome with the epoch of its next state replaced. -/
def withEpoch (e : Nat) : Host.Outcome State Fault Refusal → Host.Outcome State Fault Refusal
  | .next s => .next { s with epoch := e }
  | .fault r => .fault r
  | .refused r => .refused r

end Sys2Proof.Machine
end

