-- ==== Sys2Proof/Certificates/Slice0/Obligations.lean ====
section
/-! DEFINITION. Certificates/Slice0/Obligations.lean: the statements for the provers. Each docstring names the rule of
spec/ that it formalises, and the log entry where a clause is the model's own choice. -/

open Sys2Proof Sys2Proof.Machine

/-! ### Reset and the invariant -/

/-- 10_state.md R34: the reset values; an unspecified buffer byte is a free value (R35, log entry 2). -/
def Obligations.ResetStateValues : Prop :=
  State.reset.rxLen = 0#16 ∧ State.reset.rxActive = .buf0 ∧ State.reset.errCount = 0#8 ∧
  State.reset.seqLast = 0#8 ∧ State.reset.txLen = 0#16 ∧
  ∀ sp i, memRead sp i State.reset = Config.unspecifiedByte State.reset.epoch sp i

/-- The invariant of R33 holds in the state after reset. -/
def Obligations.ResetMeetsInvariant : Prop := BlockInv State.reset

/-- R33: every step keeps the invariant, from every state that meets it, for every legal CAP. -/
def Obligations.StepKeepsInvariant : Prop := ∀ s t, BlockInv s → step s = .next t → BlockInv t

/-- 60_exceptions.md R188: from every state that meets the invariant, whatever requests its queue holds, the block takes
any number of steps: it never stops. -/
def Obligations.BlockNeverStops : Prop :=
  ∀ (k : Nat) (s : State), BlockInv s → ∃ t, Host.Core.run Sys2Proof.core k s = .next t ∧ BlockInv t

/-- Every operation, with any operands, answers a next state from every state that meets the invariant (40_receiver.md
R107, 41_builder.md R120 to R125). -/
def Obligations.EveryOperationCompletes : Prop := ∀ i s, BlockInv s → ∃ t, exec i s = .next t ∧ BlockInv t

/-- 70_reset_and_hazards.md R200: RESET in any state: the registers it clears, the buffers unspecified anew, the two
results; nothing else changes. -/
def Obligations.ResetOperation : Prop :=
  ∀ s, ∃ t, exec .reset s = .next t ∧
    t.rxLen = 0#16 ∧ t.rxActive = .buf0 ∧ t.errCount = 0#8 ∧ t.seqLast = 0#8 ∧ t.txLen = 0#16 ∧
    (∀ sp i, memRead sp i t = Config.unspecifiedByte (s.epoch + 1) sp i) ∧
    t.cap = s.cap ∧ t.inputs = s.inputs ∧ t.out = { s.out with rx := [none], bld := .idle }

/-- R200: at an edge with `rst` = 1 the request ports are ignored: the same state whatever they ask, with every
register cleared and the results `frame_valid` = 0 and `bld_status` = `NONE`. -/
def Obligations.ResetHasPriority : Prop :=
  ∀ s p rest, s.inputs = .edge p :: rest → p.rst = true →
    ∃ t, step s = .next t ∧
      t.rxLen = 0#16 ∧ t.rxActive = .buf0 ∧ t.errCount = 0#8 ∧ t.seqLast = 0#8 ∧ t.txLen = 0#16 ∧
      t.out.rx = [none] ∧ t.out.bld = .idle ∧ t.inputs = rest ∧ t.cap = s.cap ∧
      ∀ q, q.rst = true → q.rxrd = p.rxrd → q.txrd = p.txrd →
        step { s with inputs := .edge q :: rest } = .next t

/-! ### ADD_BYTE and RX_NOP -/

/-- 40_receiver.md R101, 60_exceptions.md R172: `Overflow`. -/
def Obligations.AddByteOverflow : Prop :=
  ∀ s b, s.rxLen.toNat = s.cap →
    exec (.addByte b) s = .next { s with
      rxLen := 0#16, errCount := (if s.errCount = 255#8 then 255#8 else s.errCount + 1#8),
      out := { s.out with rx := [none] } }

/-- 40_receiver.md R102, 60_exceptions.md R171: `Desync`. -/
def Obligations.AddByteDesync : Prop :=
  ∀ s b, Config.legalCap s.cap → s.rxLen = 0#16 → b ≠ 0x7E#8 →
    exec (.addByte b) s = .next { s with
      errCount := (if s.errCount = 255#8 then 255#8 else s.errCount + 1#8),
      out := { s.out with rx := [none] } }

/-- 40_receiver.md R103, R104: a byte stored without completing a frame. -/
def Obligations.AddByteStores : Prop :=
  ∀ s b, Config.legalCap s.cap → s.rxLen.toNat < s.cap → (s.rxLen = 0#16 → b = 0x7E#8) →
    (s.rxLen.toNat < 3 ∨ s.rxLen.toNat + 1 ≠ frameN s + 4) →
    ∃ t, exec (.addByte b) s = .next t ∧ t.rxLen.toNat = s.rxLen.toNat + 1 ∧
      memRead (activeSpace s) s.rxLen.toNat t = b ∧ t.rxActive = s.rxActive ∧ t.errCount = s.errCount ∧
      t.out = { s.out with rx := [none] }

/-- 40_receiver.md R105: completion with a valid checksum. -/
def Obligations.AddByteCompletesFrame : Prop :=
  ∀ s b, Config.legalCap s.cap → 3 ≤ s.rxLen.toNat → s.rxLen.toNat < s.cap → s.rxLen.toNat + 1 = frameN s + 4 →
    chkSum (fun i => memRead (activeSpace s) i s) 3 (s.rxLen.toNat - 1) + b = 0xFF#8 →
    ∃ t, exec (.addByte b) s = .next t ∧ t.rxLen = 0#16 ∧ t.rxActive = otherBuf s.rxActive ∧
      t.rxActive ≠ s.rxActive ∧ t.errCount = s.errCount ∧ memRead (activeSpace s) s.rxLen.toNat t = b ∧
      t.out = { s.out with rx := [some { buf := s.rxActive, len := BitVec.ofNat 16 (frameN s + 4) }] }

/-- 40_receiver.md R106, 60_exceptions.md R173: `ChecksumMismatch`. -/
def Obligations.AddByteChecksumMismatch : Prop :=
  ∀ s b, Config.legalCap s.cap → 3 ≤ s.rxLen.toNat → s.rxLen.toNat < s.cap → s.rxLen.toNat + 1 = frameN s + 4 →
    chkSum (fun i => memRead (activeSpace s) i s) 3 (s.rxLen.toNat - 1) + b ≠ 0xFF#8 →
    ∃ t, exec (.addByte b) s = .next t ∧ t.rxLen = 0#16 ∧ t.rxActive = s.rxActive ∧
      t.errCount = (if s.errCount = 255#8 then 255#8 else s.errCount + 1#8) ∧
      memRead (activeSpace s) s.rxLen.toNat t = b ∧ t.out = { s.out with rx := [none] }

/-- 40_receiver.md R107: the transition table, for every state that meets the invariant: ADD_BYTE answers a next state,
the rows' states and conditions exhaust the states, and there is one clause per row, in which the byte is stored exactly
where the table says. -/
def Obligations.AddByteFollowsTransitionTable : Prop :=
  ∀ s b, BlockInv s → ∃ t, exec (.addByte b) s = .next t ∧
    let len := s.rxLen.toNat
    let sumOk := chkSum (fun i => memRead (activeSpace s) i s) 3 (len - 1) + b = 0xFF#8
    let inc := if s.errCount = 255#8 then 255#8 else s.errCount + 1#8
    let notStored := ∀ sp, t.mem sp = s.mem sp
    let storedAt := fun n => memRead (activeSpace s) n t = b ∧
      ∀ sp i, (sp ≠ activeSpace s ∨ i ≠ n) → memRead sp i t = memRead sp i s
    (rxState s = .idle ∨ rxState s = .headerHi ∨ rxState s = .headerLo ∨
      (rxState s = .collecting ∧ (len < s.cap ∨ len = s.cap))) ∧
    (rxState s = .idle → b ≠ 0x7E#8 → notStored ∧ rxState t = .idle ∧ t.rxLen.toNat = 0 ∧
      t.rxActive = s.rxActive ∧ t.errCount = inc ∧ t.out.rx = [none]) ∧
    (rxState s = .idle → b = 0x7E#8 → storedAt 0 ∧ rxState t = .headerHi ∧ t.rxLen.toNat = 1 ∧
      t.rxActive = s.rxActive ∧ t.errCount = s.errCount ∧ t.out.rx = [none]) ∧
    (rxState s = .headerHi → storedAt 1 ∧ rxState t = .headerLo ∧ t.rxLen.toNat = 2 ∧
      t.rxActive = s.rxActive ∧ t.errCount = s.errCount ∧ t.out.rx = [none]) ∧
    (rxState s = .headerLo → storedAt 2 ∧ rxState t = .collecting ∧ t.rxLen.toNat = 3 ∧
      t.rxActive = s.rxActive ∧ t.errCount = s.errCount ∧ t.out.rx = [none]) ∧
    (rxState s = .collecting → len < s.cap → len + 1 ≠ frameN s + 4 → storedAt len ∧ rxState t = .collecting ∧
      t.rxLen.toNat = len + 1 ∧ t.rxActive = s.rxActive ∧ t.errCount = s.errCount ∧ t.out.rx = [none]) ∧
    (rxState s = .collecting → len < s.cap → len + 1 = frameN s + 4 → sumOk → storedAt len ∧ rxState t = .idle ∧
      t.rxLen.toNat = 0 ∧ t.rxActive = otherBuf s.rxActive ∧ t.errCount = s.errCount ∧
      t.out.rx = [some { buf := s.rxActive, len := BitVec.ofNat 16 (frameN s + 4) }]) ∧
    (rxState s = .collecting → len < s.cap → len + 1 = frameN s + 4 → ¬ sumOk → storedAt len ∧ rxState t = .idle ∧
      t.rxLen.toNat = 0 ∧ t.rxActive = s.rxActive ∧ t.errCount = inc ∧ t.out.rx = [none]) ∧
    (rxState s = .collecting → len = s.cap → notStored ∧ rxState t = .idle ∧ t.rxLen.toNat = 0 ∧
      t.rxActive = s.rxActive ∧ t.errCount = inc ∧ t.out.rx = [none])

/-- 10_state.md R23: the receiver's state at a step boundary is a function of `rx_len`, and never `Complete`. -/
def Obligations.ReceiverStateAtBoundary : Prop :=
  ∀ s, BlockInv s →
    (rxState s = .idle ↔ s.rxLen.toNat = 0) ∧ (rxState s = .headerHi ↔ s.rxLen.toNat = 1) ∧
    (rxState s = .headerLo ↔ s.rxLen.toNat = 2) ∧
    (rxState s = .collecting ↔ 3 ≤ s.rxLen.toNat ∧ s.rxLen.toNat < frameN s + 4) ∧ rxState s ≠ .complete

/-- 10_state.md R24: N stays the same at every byte of `Collecting`. -/
def Obligations.LengthFieldStaysWhileCollecting : Prop :=
  ∀ s b t, 3 ≤ s.rxLen.toNat → exec (.addByte b) s = .next t → t.rxLen ≠ 0#16 → frameN t = frameN s

/-- The frame of ADD_BYTE (40_receiver.md R100, "State written"; R103: one byte of the active buffer at most, at index
`rx_len`, and none when the byte is rejected). -/
def Obligations.AddByteFrame : Prop :=
  ∀ s b t, exec (.addByte b) s = .next t →
    sameBuilder s t ∧ t.cap = s.cap ∧ t.epoch = s.epoch ∧ t.inputs = s.inputs ∧
    t.out = { s.out with rx := t.out.rx } ∧
    (∀ sp i, (sp ≠ activeSpace s ∨ i ≠ s.rxLen.toNat) → memRead sp i t = memRead sp i s) ∧
    (s.rxLen.toNat = s.cap ∨ (s.rxLen = 0#16 ∧ b ≠ 0x7E#8) → ∀ sp i, memRead sp i t = memRead sp i s) ∧
    (t.rxActive = s.rxActive ∨ ∃ h, t.out.rx = [some h])

/-- 40_receiver.md R109: RX_NOP changes no state and its result is none. -/
def Obligations.RxNopDoesNothing : Prop :=
  ∀ s, exec .rxNop s = .next { s with out := { s.out with rx := [none] } }

/-- 44_readout.md R160, 60_exceptions.md R176: over any bytes fed, the error counter grows by the number of ADD_BYTE
operations that raise `Desync`, `Overflow` or `ChecksumMismatch`, and stops at 255. -/
def Obligations.ErrorCountSaturates : Prop :=
  ∀ bytes s t, Config.legalCap s.cap → feed bytes s = .next t →
    t.errCount.toNat = min 255 (s.errCount.toNat + errorsFed bytes s)

/-- 40_receiver.md R102: k stray bytes in `Idle` add k to the count, up to saturation, and leave no other trace. -/
def Obligations.StrayBytesCountOneEach : Prop :=
  ∀ bytes s, Config.legalCap s.cap → s.rxLen = 0#16 → (∀ b ∈ bytes, b ≠ 0x7E#8) →
    ∃ t, feed bytes s = .next t ∧ t.errCount.toNat = min 255 (s.errCount.toNat + bytes.length) ∧
      t.out.rx = List.replicate bytes.length none ∧
      sameBlock { s with errCount := t.errCount } t

/-- 60_exceptions.md R176: the saturating increment that each receiver error makes; the counter never decreases, and
RESET alone clears it. -/
def Obligations.OnlyResetLowersErrorCount : Prop :=
  (∀ c : Byte, satInc c = if c = 255#8 then 255#8 else c + 1#8) ∧
  (∀ e s, (raiseError e s).errCount = satInc s.errCount) ∧
  (∀ i s t, i ≠ .reset → exec i s = .next t → s.errCount.toNat ≤ t.errCount.toNat) ∧
  (∀ s t, exec .reset s = .next t → t.errCount = 0#8)

/-- 40_receiver.md R105: the buffers of consecutive completions alternate, the first being the active one. -/
def Obligations.CompletionsAlternateBuffers : Prop :=
  ∀ bytes s t, feed bytes s = .next t → alternatesFrom s.rxActive (handlesOf t.out.rx)

/-- 20_memory.md R64: the other buffer, which holds the frame last returned, does not change up to and including the
byte that completes the next valid frame. -/
def Obligations.ReturnedFrameStaysReadable : Prop :=
  ∀ bytes s t, feed bytes s = .next t → (∀ r ∈ t.out.rx.dropLast, r = none) →
    ∀ i, memRead (rxSpace (otherBuf s.rxActive)) i t = memRead (rxSpace (otherBuf s.rxActive)) i s

/-- 10_state.md R35: no operation but a read port and RESET depends on a byte the block has not written: with other free
values (another epoch) it does the same. -/
def Obligations.UnwrittenBytesDoNotMatter : Prop :=
  (∀ s b e, BlockInv s → exec (.addByte b) { s with epoch := e } = withEpoch e (exec (.addByte b) s)) ∧
  (∀ s i e, isBuild i → exec i { s with epoch := e } = withEpoch e (exec i s))

/-- 70_reset_and_hazards.md R204, 20_memory.md R64: while the contract of a handle holds (log entry 16), whatever else
the host presents, RX_READ at every index of its buffer returns the byte that was there when the frame was returned. -/
def Obligations.HandleReadsReturnedFrame : Prop :=
  ∀ h since s t, handleReadable h since s = true → runInputs since s = .next t →
    ∀ i : Half, ∃ u, exec (.rxRead h.buf i) t = .next u ∧ u.out.rxrdData = some (portRead (rxSpace h.buf) i s)

/-- R204: exactly one frame of slack. A handle stays readable over any edge but RESET while its buffer is not the active
one, and over any bytes fed up to and including the byte that completes the next valid frame; after that frame, a stray
byte leaves it readable and the first byte accepted ends it. -/
def Obligations.HandleHasOneFrameOfSlack : Prop :=
  ∀ (h : Handle) (s : State), BlockInv s →
    (s.rxActive = otherBuf h.buf →
      (∀ p : Pins, p.rst = false → handleReadable h [.edge p] s = true) ∧
      ∀ bytes t, feed bytes s = .next t → (∀ r ∈ t.out.rx.dropLast, r = none) →
        handleReadable h [.feed bytes] s = true) ∧
    (s.rxActive = h.buf → s.rxLen = 0#16 →
      ∀ b, handleReadable h [.feed [b]] s = decide (b ≠ 0x7E#8))

/-- R204: what a late caller reads: after the first `n` bytes of the frame after the next, index j of the buffer holds
that frame's byte j where j < n, and the old frame's byte beyond. -/
def Obligations.LateReaderSeesMixOfFrames : Prop :=
  ∀ (h : Handle) (s : State) (tail : List Byte) (n : Nat), BlockInv s → s.rxActive = h.buf → s.rxLen = 0#16 →
    tail.length ≤ 65536 → n < tail.length + 3 → n ≤ s.cap →
    ∃ t, feed ((wireBytes tail).take n) s = .next t ∧
      ∀ j, memRead (rxSpace h.buf) j t = if j < n then (wireBytes tail).getD j 0#8 else memRead (rxSpace h.buf) j s

/-! ### Frames on the wire -/

/-- 30_encoding.md R88, R91: each frame row feeds its bytes to the receiver and nothing else: the type, the id and the
body are read by no rule (the rows as operations: log entry 6). -/
def Obligations.FrameRowsFeedTheirBytes : Prop :=
  ∀ i s, isFrame i → exec i s = feed (wireBytes (frameTail i)) s ∧ encode i = .wire (wireBytes (frameTail i))

/-- 40_receiver.md R105, 30_encoding.md R79, R88: a whole frame of any type that fits CAP and verifies, fed in `Idle`,
gives none for every byte but the last and a handle for the last; the buffer holds the bytes fed. -/
def Obligations.WholeFrameIsReceived : Prop :=
  ∀ i s, BlockInv s → isFrame i → s.rxLen = 0#16 → frameFits (frameTail i) s → tailVerifies (frameTail i) →
    ∃ t, exec i s = .next t ∧
      t.out.rx = List.replicate ((frameTail i).length + 2) none ++
        [some { buf := s.rxActive, len := BitVec.ofNat 16 ((frameTail i).length + 3) }] ∧
      t.rxLen = 0#16 ∧ t.rxActive = otherBuf s.rxActive ∧ t.errCount = s.errCount ∧
      readBytes (rxSpace s.rxActive) ((frameTail i).length + 3) t = wireBytes (frameTail i)

/-- 40_receiver.md R106: the same frame with a sum that is not 0xFF: none for every byte, one error counted, no toggle,
the bad bytes left in the active buffer. -/
def Obligations.BadChecksumFrameIsDropped : Prop :=
  ∀ i s, BlockInv s → isFrame i → s.rxLen = 0#16 → frameFits (frameTail i) s → tailVerifies (frameTail i) = false →
    ∃ t, exec i s = .next t ∧
      t.out.rx = List.replicate ((frameTail i).length + 3) none ∧
      t.rxLen = 0#16 ∧ t.rxActive = s.rxActive ∧
      t.errCount = (if s.errCount = 255#8 then 255#8 else s.errCount + 1#8) ∧
      readBytes (rxSpace s.rxActive) ((frameTail i).length + 3) t = wireBytes (frameTail i)

/-- 40_receiver.md R101: a frame that announces N + 4 > CAP, fed in `Idle`, fills the buffer with its first CAP bytes,
and byte number CAP + 1 ends it in `Overflow`, whatever that byte is (resynchronisation: log entry 12). -/
def Obligations.OversizeFrameOverflows : Prop :=
  ∀ tail s, BlockInv s → s.rxLen = 0#16 → s.cap < tail.length + 3 → tail.length ≤ 65536 →
    ∃ t, feed ((wireBytes tail).take s.cap) s = .next t ∧ t.rxLen.toNat = s.cap ∧ t.errCount = s.errCount ∧
      t.out.rx = List.replicate s.cap none ∧ readBytes (activeSpace s) s.cap t = (wireBytes tail).take s.cap ∧
      ∀ b, ∃ u, exec (.addByte b) t = .next u ∧ u.rxLen = 0#16 ∧ u.out.rx = [none] ∧ u.rxActive = s.rxActive ∧
        u.errCount = (if s.errCount = 255#8 then 255#8 else s.errCount + 1#8) ∧ ∀ sp, u.mem sp = t.mem sp

/-- The frame of the frame rows: nothing of the builder or the sequencer, and, in `Idle` with a frame that fits CAP, no
receive byte but those of the frame in the active buffer (20_memory.md R51). -/
def Obligations.FrameRowsFrame : Prop :=
  ∀ i s t, isFrame i → exec i s = .next t →
    sameBuilder s t ∧ t.cap = s.cap ∧ t.epoch = s.epoch ∧ t.inputs = s.inputs ∧
    t.out = { s.out with rx := t.out.rx } ∧ (∀ j, memRead .txbuf j t = memRead .txbuf j s) ∧
    (s.rxLen = 0#16 → frameFits (frameTail i) s → Config.legalCap s.cap →
      ∀ sp j, (sp ≠ activeSpace s ∨ (frameTail i).length + 3 ≤ j) → memRead sp j t = memRead sp j s)

/-- 30_encoding.md R91: feeding bytes in one step leaves the block as presenting them one per edge does (log entry 6).
-/
def Obligations.FeedIsOneByteAnEdge : Prop :=
  ∀ bytes s t, feed bytes s = .next t →
    ∃ u, runTrace (feedLines bytes) s = .next u ∧ sameBlock t u ∧ u.inputs = s.inputs

/-! ### The builder, the sequencer, the checksum -/

/-- 41_builder.md R120, 30_encoding.md R75: BUILD_CMD: refused whole over CAP, and its frame byte by byte where it fits.
That a failed build draws no id is the spec's own choice D14 (U10), and that the bytes beyond the frame stay is its own
choice D19. -/
def Obligations.BuildCmdLaysOutFrame : Prop :=
  ∀ s payload, Config.legalCap s.cap →
    (s.cap < payload.length + 6 →
      exec (.buildCmd payload) s = .next { s with out := { s.out with bld := .capacityExceeded } }) ∧
    (payload.length + 6 ≤ s.cap → ∃ t, exec (.buildCmd payload) s = .next t ∧
      let id := if s.seqLast = 255#8 then 1#8 else s.seqLast + 1#8
      let summed := 0x08#8 :: id :: payload
      t.seqLast = id ∧ t.txLen.toNat = payload.length + 6 ∧ t.out = { s.out with bld := .ok } ∧
      readBytes .txbuf (payload.length + 6) t =
        [0x7E#8, BitVec.ofNat 8 ((payload.length + 2) / 256), BitVec.ofNat 8 (payload.length + 2)] ++ summed
          ++ [0xFF#8 - summed.foldr (fun b acc => b + acc) 0#8] ∧
      (∀ i, payload.length + 6 ≤ i → memRead .txbuf i t = memRead .txbuf i s) ∧
      sameReceiver s t ∧ t.cap = s.cap ∧ t.epoch = s.epoch ∧ t.inputs = s.inputs)

/-- 41_builder.md R121, 30_encoding.md R76, R87: BUILD_DATA: refused whole over CAP, and its frame byte by byte where it
fits. That a failed build draws no id is the spec's own choice D14 (U10), and that the bytes beyond the frame stay is its
own choice D19. -/
def Obligations.BuildDataLaysOutFrame : Prop :=
  ∀ s addr payload, Config.legalCap s.cap →
    (s.cap < payload.length + 18 →
      exec (.buildData addr payload) s = .next { s with out := { s.out with bld := .capacityExceeded } }) ∧
    (payload.length + 18 ≤ s.cap → ∃ t, exec (.buildData addr payload) s = .next t ∧
      let id := if s.seqLast = 255#8 then 1#8 else s.seqLast + 1#8
      let a := if addr = 0#64 then 0x000000000000FFFF#64 else addr
      let summed := [0x10#8, id] ++ (List.range 8).map (fun k => a.extractLsb' (56 - 8 * k) 8)
        ++ [0xFF#8, 0xFE#8, 0x00#8, 0x00#8] ++ payload
      t.seqLast = id ∧ t.txLen.toNat = payload.length + 18 ∧ t.out = { s.out with bld := .ok } ∧
      readBytes .txbuf (payload.length + 18) t =
        [0x7E#8, BitVec.ofNat 8 ((payload.length + 14) / 256), BitVec.ofNat 8 (payload.length + 14)] ++ summed
          ++ [0xFF#8 - summed.foldr (fun b acc => b + acc) 0#8] ∧
      (∀ i, payload.length + 18 ≤ i → memRead .txbuf i t = memRead .txbuf i s) ∧
      sameReceiver s t ∧ t.cap = s.cap ∧ t.epoch = s.epoch ∧ t.inputs = s.inputs)

/-- 60_exceptions.md R174: `CapacityExceeded` exactly when the total length exceeds CAP, and then no state changes (that
no id is drawn is the spec's own choice D14, U10). -/
def Obligations.BuildFailsExactlyOverCapacity : Prop :=
  ∀ i s, isBuild i →
    (s.cap < buildLength i → exec i s = .next { s with out := { s.out with bld := .capacityExceeded } }) ∧
    (buildLength i ≤ s.cap → ∃ t, exec i s = .next t ∧ t.out.bld = .ok)

/-- 41_builder.md R123, 30_encoding.md R83: the status depends on the request and CAP alone, and a build that succeeds
reads no state but `seq_last`. -/
def Obligations.BuildReadsOnlySequencer : Prop :=
  ∀ i s u t v, isBuild i → s.cap = u.cap → exec i s = .next t → exec i u = .next v →
    t.out.bld = v.out.bld ∧
    (s.seqLast = u.seqLast → t.out.bld = .ok →
      t.seqLast = v.seqLast ∧ t.txLen = v.txLen ∧
      ∀ k, k < buildLength i → memRead .txbuf k t = memRead .txbuf k v)

/-- 41_builder.md R126: the frame a build leaves, fed to the receiver in `Idle`, comes back whole. -/
def Obligations.BuiltFrameRoundTrip : Prop :=
  ∀ i s, BlockInv s → s.rxLen = 0#16 → isBuild i → buildLength i ≤ s.cap →
    ∃ t u, exec i s = .next t ∧ t.txLen.toNat = buildLength i ∧ feed (txFrame t) t = .next u ∧
      u.out.rx = List.replicate (buildLength i - 1) none ++ [some { buf := s.rxActive, len := t.txLen }] ∧
      readBytes (rxSpace s.rxActive) (buildLength i) u = txFrame t ∧
      (∀ k, k < buildLength i → memRead (rxSpace s.rxActive) k u = memRead .txbuf k t)

/-- 70_reset_and_hazards.md R205, 20_memory.md R65: until the next build is presented (log entry 16), whatever else the
host presents, TX_READ and TX_LEN return the frame last built. -/
def Obligations.BuiltFrameStaysUntilNextBuild : Prop :=
  ∀ since s t, sendReadable since = true → runInputs since s = .next t →
    t.txLen = s.txLen ∧ txFrame t = txFrame s ∧
    ∀ i : Half, ∃ u, exec (.txRead i) t = .next u ∧ u.out.txrdData = some (portRead .txbuf i s)

/-- 41_builder.md R128: the ids of successful builds of either kind, counted from reset: 1, 2, ..., 255, 1, ... -/
def Obligations.IdsNumberSuccessfulBuilds : Prop :=
  ∀ is s, Config.legalCap s.cap → s.seqLast = 0#8 → is ≠ [] → (∀ i ∈ is, isBuild i ∧ buildLength i ≤ s.cap) →
    ∃ t, execAll is s = .next t ∧ t.seqLast.toNat = (is.length - 1) % 255 + 1 ∧ memRead .txbuf 4 t = t.seqLast

/-- 43_sequencer.md R150: SEQ_NEXT returns the id after the last one and holds it; counted from `seq_last` = 0, call
k + 1 returns k mod 255 + 1; and it never returns 0 (R151). -/
def Obligations.SequencerNeverEmitsZero : Prop :=
  (∀ s, (seqNext s).1 = (if s.seqLast = 255#8 then 1#8 else s.seqLast + 1#8) ∧
    (seqNext s).2 = { s with seqLast := (seqNext s).1 } ∧ (seqNext s).1 ≠ 0#8) ∧
  (∀ (k : Nat) (s : State), s.seqLast = 0#8 →
    (seqNext ((fun u => (seqNext u).2)^[k] s)).1.toNat = k % 255 + 1)

/-- 41_builder.md R124: BLD_NOP changes no state; `bld_status` is `NONE`. -/
def Obligations.BldNopDoesNothing : Prop :=
  ∀ s, exec .bldNop s = .next { s with out := { s.out with bld := .idle } }

/-- 41_builder.md R125: the reserved request is treated as BLD_NOP (the spec advises a model to refuse it: log entry 8).
-/
def Obligations.ReservedRequestDoesNothing : Prop :=
  ∀ s, exec .bldReserved s = .next { s with out := { s.out with bld := .idle } }

/-- 30_encoding.md R87: only the address 0 is replaced, by the broadcast address, before the split into bytes. -/
def Obligations.AddressZeroIsBroadcast : Prop :=
  (∀ payload s, exec (.buildData 0#64 payload) s = exec (.buildData 0x000000000000FFFF#64 payload) s) ∧
  (∀ a : Addr, a ≠ 0#64 → destAddr a = a) ∧
  ∀ a : Addr, ∀ k < 8, (addrBytes a)[k]? = some (a.extractLsb' (56 - 8 * k) 8)

/-- 42_checksum.md R143: the two checksum functions agree; one value of the last byte verifies; a change of one summed
byte is seen, and bytes 0, 1, 2 are not summed. -/
def Obligations.ChecksumFunctionsAgree : Prop :=
  ∀ (f : Nat → Byte) (len : Nat), 4 ≤ len →
    (chkVerify f len = true ↔ chkCompute f len = f (len - 1)) ∧
    (∃ c, ∀ g : Nat → Byte, (∀ i, i ≠ len - 1 → g i = f i) → (chkVerify g len = true ↔ g (len - 1) = c)) ∧
    (∀ (g : Nat → Byte) (j : Nat), 3 ≤ j → j ≤ len - 1 → (∀ i, i ≠ j → g i = f i) → g j ≠ f j →
      chkVerify f len = true → chkVerify g len = false) ∧
    (∀ g : Nat → Byte, (∀ i, 3 ≤ i → g i = f i) → chkVerify g len = chkVerify f len)

/-! ### Read-out -/

/-- 44_readout.md R161: RX_READ, in every state, at every index (the 0x00 at an index of CAP or more is the spec's own
choice, D12). -/
def Obligations.RxReadReturnsByte : Prop :=
  ∀ s buf (i : Half),
    exec (.rxRead buf i) s = .next { s with out := { s.out with
      rxrdData := some (if i.toNat < s.cap then memRead (rxSpace buf) i.toNat s else 0x00#8) } }

/-- 44_readout.md R162: TX_READ and TX_LEN (the 0x00 at an index of CAP or more is the spec's own choice, D12). -/
def Obligations.TxReadAndTxLenReturn : Prop :=
  ∀ s (i : Half),
    exec (.txRead i) s = .next { s with out := { s.out with
      txrdData := some (if i.toNat < s.cap then memRead .txbuf i.toNat s else 0x00#8) } } ∧
    exec .txLen s = .next { s with out := { s.out with txLenO := some s.txLen } }

/-- 44_readout.md R160: ERROR_COUNT returns `err_count`; reading does not clear it. -/
def Obligations.ErrorCountReturnsCounter : Prop :=
  ∀ s, exec .errorCount s = .next { s with out := { s.out with errCountO := some s.errCount } }

/-- 44_readout.md R164: the read outputs sampled at a step show the state before the operations of that step. -/
def Obligations.ReadPortsShowStateBefore : Prop :=
  ∀ s p rest t, s.inputs = .edge p :: rest → step s = .next t →
    t.out.rxrdData = some (portRead (rxSpace (bufOfBit (p.rxrd.extractLsb' 16 1))) (p.rxrd.extractLsb' 0 16) s) ∧
    t.out.txrdData = some (portRead .txbuf p.txrd s) ∧ t.out.txLenO = some s.txLen ∧
    t.out.errCountO = some s.errCount

/-- 30_encoding.md R81, R83: the result words at the ports. -/
def Obligations.ResultWordsAtPorts : Prop :=
  rxrWord none = 0#18 ∧
  (∀ h : Handle, (rxrWord (some h)).extractLsb' 17 1 = 1#1 ∧ (rxrWord (some h)).extractLsb' 16 1 = bufBit h.buf ∧
    (rxrWord (some h)).extractLsb' 0 16 = h.len) ∧
  bldStatusCode .idle = 0b00#2 ∧ bldStatusCode .ok = 0b01#2 ∧ bldStatusCode .capacityExceeded = 0b10#2

/-! ### A step -/

/-- A step runs the operations that the words at the ports decode to (30_encoding.md R85): the read ports, then RESET
alone or the receiver's operation and the builder's. -/
def Obligations.StepRunsDecodedRequests : Prop :=
  ∀ s p rest r b rd, s.inputs = .edge p :: rest →
    decode (.rxrd p.rxrd) = .ok rd → decode (.rxw p.rxw) = .ok r →
    decode (.bld p.bldOp p.bldAddr p.bldPlen p.bldPayload) = .ok b →
    step s =
      andThen (exec rd { s with inputs := rest, out := ⟨[], .idle, none, none, none, none⟩ }) fun s1 =>
      andThen (exec (.txRead p.txrd) s1) fun s2 => andThen (exec .txLen s2) fun s3 =>
      andThen (exec .errorCount s3) fun s4 =>
      if p.rst then exec .reset s4 else andThen (exec r s4) (exec b)

/-- 30_encoding.md R91, R79: a step runs the bytes that stand next in the trace: the frame row they decode to, and the
FEED of them where they are not one whole frame (log entries 4 and 6). -/
def Obligations.StepRunsDecodedFrame : Prop :=
  ∀ s bytes rest, s.inputs = .feed bytes :: rest →
    (∀ i, decode (.wire bytes) = .ok i →
      step s = exec i { s with inputs := rest, out := ⟨[], .idle, none, none, none, none⟩ }) ∧
    step s = feed bytes { s with inputs := rest, out := ⟨[], .idle, none, none, none, none⟩ }

/-- 30_encoding.md R85, R90: the word of a well-formed operation at the head of the queue (log entry 4; a frame row's is
its bytes, log entry 6), the other ports idle (log entry 18), makes the block do what the operation does, with the result
the operation has at its port: the receiver's, the builder's, both for RESET, or a read port's. -/
def Obligations.StepRunsEncodedOperation : Prop :=
  ∀ i s rest t, i.wellFormed = true → s.inputs = inputOfWord (encode i) :: rest →
    exec i (s.setInputs rest) = .next t →
    ∃ u, step s = .next u ∧ sameBlock t u ∧ u.inputs = rest ∧
      (isFrame i ∨ (∃ b, i = .addByte b) ∨ i = .rxNop ∨ i = .reset → u.out.rx = t.out.rx) ∧
      (isBuild i ∨ i = .bldNop ∨ i = .bldReserved ∨ i = .reset → u.out.bld = t.out.bld) ∧
      (∀ k j, i = .rxRead k j → u.out.rxrdData = t.out.rxrdData) ∧
      (∀ j, i = .txRead j → u.out.txrdData = t.out.txrdData) ∧
      (i = .txLen → u.out.txLenO = t.out.txLenO) ∧ (i = .errorCount → u.out.errCountO = t.out.errCountO)

/-- 60_exceptions.md R186: with no request presented the block does nothing and keeps all its state. -/
def Obligations.IdleStepKeepsState : Prop :=
  ∀ s, s.inputs = [] → ∃ t, step s = .next t ∧ sameBlock s t ∧ t.inputs = [] ∧ t.out.rx = [none] ∧ t.out.bld = .idle

/-- 20_memory.md R59: the receiver's and the builder's operation of one step commute. -/
def Obligations.PortOperationsCommute : Prop :=
  ∀ p s, andThen (receiverOp p s) (builderOp p) = andThen (builderOp p s) (receiverOp p)

/-- 20_memory.md R51, R59: who writes what, over every operation: only builds touch the builder's and the sequencer's
state, only ADD_BYTE and the frames it is fed touch the receiver's, RESET apart; nothing touches CAP. -/
def Obligations.UnitsOwnTheirState : Prop :=
  ∀ i s t, exec i s = .next t →
    t.cap = s.cap ∧ t.inputs = s.inputs ∧
    (i ≠ .reset → t.epoch = s.epoch ∧ (isBuild i = false → sameBuilder s t) ∧
      (isFrame i = false → (∀ b, i ≠ .addByte b) → sameReceiver s t))

/-- 30_encoding.md R89: the ignored fields of a request do not affect state or results. -/
def Obligations.IgnoredFieldsDoNotMatter : Prop :=
  ∀ p q s, p.rst = q.rst → p.rxrd = q.rxrd → p.txrd = q.txrd →
    (p.rst = false →
      p.rxw.extractLsb' 8 1 = q.rxw.extractLsb' 8 1 ∧ (p.rxw.extractLsb' 8 1 = 1#1 → p.rxw = q.rxw) ∧
      p.bldOp = q.bldOp ∧ (p.bldOp = 0b10#2 → p.bldAddr = q.bldAddr) ∧
      (p.bldOp = 0b01#2 ∨ p.bldOp = 0b10#2 → p.bldPlen = q.bldPlen ∧
        p.bldPayload % 256 ^ p.bldPlen.toNat = q.bldPayload % 256 ^ p.bldPlen.toNat)) →
    edge p s = edge q s

/-! ### Encoding -/

/-- Decoding what the encoder writes gives the operation back, for every well-formed operation with every operand
(30_encoding.md R71 to R85; that `bld_op` = 0b11 is an operation of the model: log entry 8). -/
def Obligations.DecodeEncodeRoundTrip : Prop := ∀ i : Instr, i.wellFormed = true → decode (encode i) = .ok i

/-- The other direction on the wire (R71, R79): bytes that decode are the frame of exactly one well-formed operation. -/
def Obligations.EncodeDecodedFrame : Prop :=
  ∀ bytes i, decode (.wire bytes) = .ok i → encode i = .wire bytes ∧ i.wellFormed = true ∧ isFrame i = true

/-- 30_encoding.md R79: what is one whole frame: it begins with 0x7E and ends at index N + 3. -/
def Obligations.WireDecodesExactlyWholeFrames : Prop :=
  ∀ bytes, (∃ i, decode (.wire bytes) = .ok i) ↔
    ∃ hi lo tail, bytes = 0x7E#8 :: hi :: lo :: tail ∧ bytes.length = hi.toNat * 256 + lo.toNat + 4

/-- Words written out from the tables of 30_encoding.md R81 to R92, R71 to R77, and what they decode to. That
`bld_op` = 0b11 decodes to an operation, BLD_RESERVED, is the model's choice: the spec (U2) has a decoder reject it (log
entry 8). -/
def Obligations.SampleWordsDecode : Prop :=
  decode (.rst 0b1#1) = .ok .reset ∧
  decode (.rxw 0b101010101#9) = .ok (.addByte 0x55#8) ∧
  decode (.rxw 0b001010101#9) = .ok .rxNop ∧
  decode (.bld 0b00#2 5#64 7#16 9) = .ok .bldNop ∧
  decode (.bld 0b01#2 0#64 2#16 0x484E) = .ok (.buildCmd [0x4E#8, 0x48#8]) ∧
  decode (.bld 0b10#2 0x0013A20040A1B2C3#64 2#16 0x6948) =
    .ok (.buildData 0x0013A20040A1B2C3#64 [0x48#8, 0x69#8]) ∧
  decode (.bld 0b11#2 0#64 0#16 0) = .ok .bldReserved ∧
  decode (.rxrd 0b10000000000000111#17) = .ok (.rxRead .buf1 7#16) ∧
  decode (.txrd 0b0000000000000100#16) = .ok (.txRead 4#16) ∧
  decode (.wire [0x7E#8, 0x00#8, 0x04#8, 0x08#8, 0x52#8, 0x4E#8, 0x48#8, 0x0F#8]) =
    .ok (.frameAtCommand 0x52#8 [0x4E#8, 0x48#8, 0x0F#8]) ∧
  decode (.wire [0x7E#8, 0x00#8, 0x02#8, 0x33#8, 0x00#8, 0xCC#8]) = .ok (.frameGeneric [0x33#8, 0x00#8] 0xCC#8)
end

