-- ==== Sys2Proof/Laws/Memory.lean ====
section
/-! SUPPORT. Laws/Memory.lean: the laws of one buffer space: read after write, other indexes alone, the canonical form
kept by every operation, and equal reads make equal memories. -/

namespace Sys2Proof.Machine

@[simp] theorem Memory.lookup_nil (i : Nat) : Memory.lookup [] i = none := rfl

theorem Memory.lookup_insert (m : Memory) (i j : Nat) (v : Byte) :
    Memory.lookup (Memory.insert m i v) j = if j = i then some v else Memory.lookup m j := by
  induction m with
  | nil => simp [Memory.insert, Memory.lookup, eq_comm]
  | cons c m ih =>
    obtain ⟨a, w⟩ := c
    simp only [Memory.insert]
    split_ifs with h1 h2 h3 h4 <;> simp only [Memory.lookup, ih] <;> split_ifs <;> first | rfl | omega

@[simp] theorem Memory.lookup_insert_same (m : Memory) (i : Nat) (v : Byte) :
    Memory.lookup (Memory.insert m i v) i = some v := by simp [Memory.lookup_insert]

theorem Memory.lookup_insert_other (m : Memory) {i j : Nat} (v : Byte) (h : j ≠ i) :
    Memory.lookup (Memory.insert m i v) j = Memory.lookup m j := by simp [Memory.lookup_insert, h]

/-- An index of the memory after an insertion is the new one or was there before. -/
theorem Memory.mem_insert {m : Memory} {i : Nat} {v : Byte} {c : Host.Cell} (h : c ∈ Memory.insert m i v) :
    c = (i, v) ∨ c ∈ m := by
  induction m with
  | nil => simpa [Memory.insert] using h
  | cons d m ih =>
    obtain ⟨a, w⟩ := d
    simp only [Memory.insert] at h
    split_ifs at h with h1 h2
    · simpa using h
    · simp only [List.mem_cons] at h ⊢
      tauto
    · simp only [List.mem_cons] at h ⊢
      rcases h with h | h
      · exact .inr (.inl h)
      · rcases ih h with h | h
        · exact .inl h
        · exact .inr (.inr h)

theorem Memory.wf_insert {m : Memory} (h : Memory.wf m) (i : Nat) (v : Byte) : Memory.wf (Memory.insert m i v) := by
  induction m with
  | nil => simp [Memory.insert, Memory.wf]
  | cons c m ih =>
    obtain ⟨a, w⟩ := c
    have hm : Memory.wf m := (List.pairwise_cons.mp h).2
    have ha : ∀ d ∈ m, a < d.1 := (List.pairwise_cons.mp h).1
    simp only [Memory.insert]
    split_ifs with h1 h2
    · refine List.pairwise_cons.mpr ⟨?_, h⟩
      intro d hd
      rcases List.mem_cons.mp hd with rfl | hd
      · exact h1
      · exact lt_trans h1 (ha d hd)
    · subst h2
      exact List.pairwise_cons.mpr ⟨ha, hm⟩
    · refine List.pairwise_cons.mpr ⟨?_, ih hm⟩
      intro d hd
      rcases Memory.mem_insert hd with rfl | hd
      · exact lt_of_le_of_ne (not_lt.mp h1) (Ne.symm h2)
      · exact ha d hd

theorem Memory.below_insert {m : Memory} {n : Nat} (h : Memory.below m n) {i : Nat} (hi : i < n) (v : Byte) :
    Memory.below (Memory.insert m i v) n := by
  intro c hc
  rcases Memory.mem_insert hc with rfl | hc
  · exact hi
  · exact h c hc

theorem Memory.lookup_insertAll (bs : List Byte) : ∀ (m : Memory) (i j : Nat),
    Memory.lookup (Memory.insertAll m i bs) j =
      if i ≤ j ∧ j < i + bs.length then bs[j - i]? else Memory.lookup m j := by
  induction bs with
  | nil =>
    intro m i j
    simp [Memory.insertAll]
  | cons b bs ih =>
    intro m i j
    simp only [Memory.insertAll, ih, List.length_cons]
    by_cases h : j = i
    · subst h
      have h1 : ¬ (j + 1 ≤ j ∧ j < j + 1 + bs.length) := by omega
      have h2 : j ≤ j ∧ j < j + (bs.length + 1) := by omega
      rw [if_neg h1, if_pos h2, Memory.lookup_insert_same]
      simp
    · rw [Memory.lookup_insert_other _ _ h]
      by_cases h3 : i + 1 ≤ j ∧ j < i + 1 + bs.length
      · have h4 : i ≤ j ∧ j < i + (bs.length + 1) := by omega
        rw [if_pos h3, if_pos h4]
        obtain ⟨k, rfl⟩ : ∃ k, j = i + 1 + k := ⟨j - (i + 1), by omega⟩
        have h5 : i + 1 + k - (i + 1) = k := by omega
        have h6 : i + 1 + k - i = k + 1 := by omega
        rw [h5, h6, List.getElem?_cons_succ]
      · have h4 : ¬ (i ≤ j ∧ j < i + (bs.length + 1)) := by omega
        rw [if_neg h3, if_neg h4]

theorem Memory.wf_insertAll (bs : List Byte) : ∀ {m : Memory}, Memory.wf m → ∀ i, Memory.wf (Memory.insertAll m i bs) := by
  induction bs with
  | nil => intro m h i; exact h
  | cons b bs ih => intro m h i; exact ih (Memory.wf_insert h i b) (i + 1)

theorem Memory.below_insertAll (bs : List Byte) {n : Nat} : ∀ {m : Memory} {i : Nat}, Memory.below m n →
    i + bs.length ≤ n → Memory.below (Memory.insertAll m i bs) n := by
  induction bs with
  | nil => intro m i h _; exact h
  | cons b bs ih =>
    intro m i h hn
    simp only [List.length_cons] at hn
    exact ih (Memory.below_insert h (by omega) b) (by omega)

theorem Memory.lookup_eq_none_of_below {m : Memory} {n i : Nat} (h : Memory.below m n) (hi : n ≤ i) :
    Memory.lookup m i = none := by
  induction m with
  | nil => rfl
  | cons c m ih =>
    obtain ⟨a, v⟩ := c
    have ha : a < n := h (a, v) (by simp)
    have : a ≠ i := by omega
    simp only [Memory.lookup, this, if_false]
    exact ih (fun d hd => h d (List.mem_cons_of_mem _ hd))

theorem Memory.lookup_eq_none_of_lt {m : Memory} {i : Nat} (h : ∀ c ∈ m, i < c.1) : Memory.lookup m i = none := by
  induction m with
  | nil => rfl
  | cons c m ih =>
    obtain ⟨a, v⟩ := c
    have ha : i < a := h (a, v) (by simp)
    have : a ≠ i := by omega
    simp only [Memory.lookup, this, if_false]
    exact ih (fun d hd => h d (List.mem_cons_of_mem _ hd))

/-- Equal reads make equal memories: the form is canonical. -/
theorem Memory.ext_of_lookup : ∀ {m n : Memory}, Memory.wf m → Memory.wf n →
    (∀ i, Memory.lookup m i = Memory.lookup n i) → m = n := by
  intro m
  induction m with
  | nil =>
    intro n _ _ h
    cases n with
    | nil => rfl
    | cons d n => have := h d.1; simp [Memory.lookup] at this
  | cons c m ih =>
    intro n hm hn h
    cases n with
    | nil => have := h c.1; simp [Memory.lookup] at this
    | cons d n =>
      obtain ⟨a, v⟩ := c
      obtain ⟨b, w⟩ := d
      have hma := (List.pairwise_cons.mp hm).1
      have hnb := (List.pairwise_cons.mp hn).1
      have hab : a = b := by
        rcases lt_trichotomy a b with hlt | heq | hgt
        · have h1 := h a
          have : ¬ b = a := by omega
          simp only [Memory.lookup, if_true, this, if_false] at h1
          rw [Memory.lookup_eq_none_of_lt (fun c hc => lt_trans hlt (hnb c hc))] at h1
          cases h1
        · exact heq
        · have h1 := h b
          have : ¬ a = b := by omega
          simp only [Memory.lookup, if_true, this, if_false] at h1
          rw [Memory.lookup_eq_none_of_lt (fun c hc => lt_trans hgt (hma c hc))] at h1
          cases h1
      subst hab
      have hvw : v = w := by have h1 := h a; simpa [Memory.lookup] using h1
      subst hvw
      congr 1
      refine ih (List.pairwise_cons.mp hm).2 (List.pairwise_cons.mp hn).2 ?_
      intro i
      by_cases hi : a = i
      · subst hi
        rw [Memory.lookup_eq_none_of_lt hma, Memory.lookup_eq_none_of_lt hnb]
      · have h1 := h i
        simpa only [Memory.lookup, hi, if_false] using h1

end Sys2Proof.Machine
end

