-- ==== Sys2Proof/Laws/State.lean ====
section
/-! SUPPORT. Laws/State.lean: one lemma per field per update of the state, and what each update leaves of the buffer
spaces and of `memRead`. -/

namespace Sys2Proof.Machine

@[simp] theorem setRx_cap (s : State) (r : List RxResult) : (s.setRx r).cap = s.cap := rfl
@[simp] theorem setRx_epoch (s : State) (r : List RxResult) : (s.setRx r).epoch = s.epoch := rfl
@[simp] theorem setRx_rxBuf0 (s : State) (r : List RxResult) : (s.setRx r).rxBuf0 = s.rxBuf0 := rfl
@[simp] theorem setRx_rxBuf1 (s : State) (r : List RxResult) : (s.setRx r).rxBuf1 = s.rxBuf1 := rfl
@[simp] theorem setRx_rxLen (s : State) (r : List RxResult) : (s.setRx r).rxLen = s.rxLen := rfl
@[simp] theorem setRx_rxActive (s : State) (r : List RxResult) : (s.setRx r).rxActive = s.rxActive := rfl
@[simp] theorem setRx_errCount (s : State) (r : List RxResult) : (s.setRx r).errCount = s.errCount := rfl
@[simp] theorem setRx_txBuf (s : State) (r : List RxResult) : (s.setRx r).txBuf = s.txBuf := rfl
@[simp] theorem setRx_txLen (s : State) (r : List RxResult) : (s.setRx r).txLen = s.txLen := rfl
@[simp] theorem setRx_seqLast (s : State) (r : List RxResult) : (s.setRx r).seqLast = s.seqLast := rfl
@[simp] theorem setRx_inputs (s : State) (r : List RxResult) : (s.setRx r).inputs = s.inputs := rfl
@[simp] theorem setRx_out_rx (s : State) (r : List RxResult) : (s.setRx r).out.rx = r := rfl
@[simp] theorem setRx_out_bld (s : State) (r : List RxResult) : (s.setRx r).out.bld = s.out.bld := rfl
@[simp] theorem setRx_out_rxrdData (s : State) (r : List RxResult) : (s.setRx r).out.rxrdData = s.out.rxrdData := rfl
@[simp] theorem setRx_out_txrdData (s : State) (r : List RxResult) : (s.setRx r).out.txrdData = s.out.txrdData := rfl
@[simp] theorem setRx_out_txLenO (s : State) (r : List RxResult) : (s.setRx r).out.txLenO = s.out.txLenO := rfl
@[simp] theorem setRx_out_errCountO (s : State) (r : List RxResult) :
    (s.setRx r).out.errCountO = s.out.errCountO := rfl
@[simp] theorem setRx_mem (s : State) (r : List RxResult) (sp : Space) :
    (s.setRx r).mem sp = s.mem sp := by cases sp <;> rfl
@[simp] theorem memRead_setRx (s : State) (r : List RxResult) (sp : Space) (i : Nat) :
    memRead sp i (s.setRx r) = memRead sp i s := by cases sp <;> rfl

@[simp] theorem setBld_cap (s : State) (b : BldStatus) : (s.setBld b).cap = s.cap := rfl
@[simp] theorem setBld_epoch (s : State) (b : BldStatus) : (s.setBld b).epoch = s.epoch := rfl
@[simp] theorem setBld_rxBuf0 (s : State) (b : BldStatus) : (s.setBld b).rxBuf0 = s.rxBuf0 := rfl
@[simp] theorem setBld_rxBuf1 (s : State) (b : BldStatus) : (s.setBld b).rxBuf1 = s.rxBuf1 := rfl
@[simp] theorem setBld_rxLen (s : State) (b : BldStatus) : (s.setBld b).rxLen = s.rxLen := rfl
@[simp] theorem setBld_rxActive (s : State) (b : BldStatus) : (s.setBld b).rxActive = s.rxActive := rfl
@[simp] theorem setBld_errCount (s : State) (b : BldStatus) : (s.setBld b).errCount = s.errCount := rfl
@[simp] theorem setBld_txBuf (s : State) (b : BldStatus) : (s.setBld b).txBuf = s.txBuf := rfl
@[simp] theorem setBld_txLen (s : State) (b : BldStatus) : (s.setBld b).txLen = s.txLen := rfl
@[simp] theorem setBld_seqLast (s : State) (b : BldStatus) : (s.setBld b).seqLast = s.seqLast := rfl
@[simp] theorem setBld_inputs (s : State) (b : BldStatus) : (s.setBld b).inputs = s.inputs := rfl
@[simp] theorem setBld_out_rx (s : State) (b : BldStatus) : (s.setBld b).out.rx = s.out.rx := rfl
@[simp] theorem setBld_out_bld (s : State) (b : BldStatus) : (s.setBld b).out.bld = b := rfl
@[simp] theorem setBld_out_rxrdData (s : State) (b : BldStatus) : (s.setBld b).out.rxrdData = s.out.rxrdData := rfl
@[simp] theorem setBld_out_txrdData (s : State) (b : BldStatus) : (s.setBld b).out.txrdData = s.out.txrdData := rfl
@[simp] theorem setBld_out_txLenO (s : State) (b : BldStatus) : (s.setBld b).out.txLenO = s.out.txLenO := rfl
@[simp] theorem setBld_out_errCountO (s : State) (b : BldStatus) : (s.setBld b).out.errCountO = s.out.errCountO := rfl
@[simp] theorem setBld_mem (s : State) (b : BldStatus) (sp : Space) :
    (s.setBld b).mem sp = s.mem sp := by cases sp <;> rfl
@[simp] theorem memRead_setBld (s : State) (b : BldStatus) (sp : Space) (i : Nat) :
    memRead sp i (s.setBld b) = memRead sp i s := by cases sp <;> rfl

@[simp] theorem setRxrdData_cap (s : State) (v : Byte) : (s.setRxrdData v).cap = s.cap := rfl
@[simp] theorem setRxrdData_epoch (s : State) (v : Byte) : (s.setRxrdData v).epoch = s.epoch := rfl
@[simp] theorem setRxrdData_rxBuf0 (s : State) (v : Byte) : (s.setRxrdData v).rxBuf0 = s.rxBuf0 := rfl
@[simp] theorem setRxrdData_rxBuf1 (s : State) (v : Byte) : (s.setRxrdData v).rxBuf1 = s.rxBuf1 := rfl
@[simp] theorem setRxrdData_rxLen (s : State) (v : Byte) : (s.setRxrdData v).rxLen = s.rxLen := rfl
@[simp] theorem setRxrdData_rxActive (s : State) (v : Byte) : (s.setRxrdData v).rxActive = s.rxActive := rfl
@[simp] theorem setRxrdData_errCount (s : State) (v : Byte) : (s.setRxrdData v).errCount = s.errCount := rfl
@[simp] theorem setRxrdData_txBuf (s : State) (v : Byte) : (s.setRxrdData v).txBuf = s.txBuf := rfl
@[simp] theorem setRxrdData_txLen (s : State) (v : Byte) : (s.setRxrdData v).txLen = s.txLen := rfl
@[simp] theorem setRxrdData_seqLast (s : State) (v : Byte) : (s.setRxrdData v).seqLast = s.seqLast := rfl
@[simp] theorem setRxrdData_inputs (s : State) (v : Byte) : (s.setRxrdData v).inputs = s.inputs := rfl
@[simp] theorem setRxrdData_out_rx (s : State) (v : Byte) : (s.setRxrdData v).out.rx = s.out.rx := rfl
@[simp] theorem setRxrdData_out_bld (s : State) (v : Byte) : (s.setRxrdData v).out.bld = s.out.bld := rfl
@[simp] theorem setRxrdData_out_rxrdData (s : State) (v : Byte) : (s.setRxrdData v).out.rxrdData = some v := rfl
@[simp] theorem setRxrdData_out_txrdData (s : State) (v : Byte) :
    (s.setRxrdData v).out.txrdData = s.out.txrdData := rfl
@[simp] theorem setRxrdData_out_txLenO (s : State) (v : Byte) : (s.setRxrdData v).out.txLenO = s.out.txLenO := rfl
@[simp] theorem setRxrdData_out_errCountO (s : State) (v : Byte) :
    (s.setRxrdData v).out.errCountO = s.out.errCountO := rfl
@[simp] theorem setRxrdData_mem (s : State) (v : Byte) (sp : Space) :
    (s.setRxrdData v).mem sp = s.mem sp := by cases sp <;> rfl
@[simp] theorem memRead_setRxrdData (s : State) (v : Byte) (sp : Space) (i : Nat) :
    memRead sp i (s.setRxrdData v) = memRead sp i s := by cases sp <;> rfl

@[simp] theorem setTxrdData_cap (s : State) (v : Byte) : (s.setTxrdData v).cap = s.cap := rfl
@[simp] theorem setTxrdData_epoch (s : State) (v : Byte) : (s.setTxrdData v).epoch = s.epoch := rfl
@[simp] theorem setTxrdData_rxBuf0 (s : State) (v : Byte) : (s.setTxrdData v).rxBuf0 = s.rxBuf0 := rfl
@[simp] theorem setTxrdData_rxBuf1 (s : State) (v : Byte) : (s.setTxrdData v).rxBuf1 = s.rxBuf1 := rfl
@[simp] theorem setTxrdData_rxLen (s : State) (v : Byte) : (s.setTxrdData v).rxLen = s.rxLen := rfl
@[simp] theorem setTxrdData_rxActive (s : State) (v : Byte) : (s.setTxrdData v).rxActive = s.rxActive := rfl
@[simp] theorem setTxrdData_errCount (s : State) (v : Byte) : (s.setTxrdData v).errCount = s.errCount := rfl
@[simp] theorem setTxrdData_txBuf (s : State) (v : Byte) : (s.setTxrdData v).txBuf = s.txBuf := rfl
@[simp] theorem setTxrdData_txLen (s : State) (v : Byte) : (s.setTxrdData v).txLen = s.txLen := rfl
@[simp] theorem setTxrdData_seqLast (s : State) (v : Byte) : (s.setTxrdData v).seqLast = s.seqLast := rfl
@[simp] theorem setTxrdData_inputs (s : State) (v : Byte) : (s.setTxrdData v).inputs = s.inputs := rfl
@[simp] theorem setTxrdData_out_rx (s : State) (v : Byte) : (s.setTxrdData v).out.rx = s.out.rx := rfl
@[simp] theorem setTxrdData_out_bld (s : State) (v : Byte) : (s.setTxrdData v).out.bld = s.out.bld := rfl
@[simp] theorem setTxrdData_out_rxrdData (s : State) (v : Byte) :
    (s.setTxrdData v).out.rxrdData = s.out.rxrdData := rfl
@[simp] theorem setTxrdData_out_txrdData (s : State) (v : Byte) : (s.setTxrdData v).out.txrdData = some v := rfl
@[simp] theorem setTxrdData_out_txLenO (s : State) (v : Byte) : (s.setTxrdData v).out.txLenO = s.out.txLenO := rfl
@[simp] theorem setTxrdData_out_errCountO (s : State) (v : Byte) :
    (s.setTxrdData v).out.errCountO = s.out.errCountO := rfl
@[simp] theorem setTxrdData_mem (s : State) (v : Byte) (sp : Space) :
    (s.setTxrdData v).mem sp = s.mem sp := by cases sp <;> rfl
@[simp] theorem memRead_setTxrdData (s : State) (v : Byte) (sp : Space) (i : Nat) :
    memRead sp i (s.setTxrdData v) = memRead sp i s := by cases sp <;> rfl

@[simp] theorem setTxLenO_cap (s : State) (n : Half) : (s.setTxLenO n).cap = s.cap := rfl
@[simp] theorem setTxLenO_epoch (s : State) (n : Half) : (s.setTxLenO n).epoch = s.epoch := rfl
@[simp] theorem setTxLenO_rxBuf0 (s : State) (n : Half) : (s.setTxLenO n).rxBuf0 = s.rxBuf0 := rfl
@[simp] theorem setTxLenO_rxBuf1 (s : State) (n : Half) : (s.setTxLenO n).rxBuf1 = s.rxBuf1 := rfl
@[simp] theorem setTxLenO_rxLen (s : State) (n : Half) : (s.setTxLenO n).rxLen = s.rxLen := rfl
@[simp] theorem setTxLenO_rxActive (s : State) (n : Half) : (s.setTxLenO n).rxActive = s.rxActive := rfl
@[simp] theorem setTxLenO_errCount (s : State) (n : Half) : (s.setTxLenO n).errCount = s.errCount := rfl
@[simp] theorem setTxLenO_txBuf (s : State) (n : Half) : (s.setTxLenO n).txBuf = s.txBuf := rfl
@[simp] theorem setTxLenO_txLen (s : State) (n : Half) : (s.setTxLenO n).txLen = s.txLen := rfl
@[simp] theorem setTxLenO_seqLast (s : State) (n : Half) : (s.setTxLenO n).seqLast = s.seqLast := rfl
@[simp] theorem setTxLenO_inputs (s : State) (n : Half) : (s.setTxLenO n).inputs = s.inputs := rfl
@[simp] theorem setTxLenO_out_rx (s : State) (n : Half) : (s.setTxLenO n).out.rx = s.out.rx := rfl
@[simp] theorem setTxLenO_out_bld (s : State) (n : Half) : (s.setTxLenO n).out.bld = s.out.bld := rfl
@[simp] theorem setTxLenO_out_rxrdData (s : State) (n : Half) : (s.setTxLenO n).out.rxrdData = s.out.rxrdData := rfl
@[simp] theorem setTxLenO_out_txrdData (s : State) (n : Half) : (s.setTxLenO n).out.txrdData = s.out.txrdData := rfl
@[simp] theorem setTxLenO_out_txLenO (s : State) (n : Half) : (s.setTxLenO n).out.txLenO = some n := rfl
@[simp] theorem setTxLenO_out_errCountO (s : State) (n : Half) :
    (s.setTxLenO n).out.errCountO = s.out.errCountO := rfl
@[simp] theorem setTxLenO_mem (s : State) (n : Half) (sp : Space) :
    (s.setTxLenO n).mem sp = s.mem sp := by cases sp <;> rfl
@[simp] theorem memRead_setTxLenO (s : State) (n : Half) (sp : Space) (i : Nat) :
    memRead sp i (s.setTxLenO n) = memRead sp i s := by cases sp <;> rfl

@[simp] theorem setErrCountO_cap (s : State) (c : Byte) : (s.setErrCountO c).cap = s.cap := rfl
@[simp] theorem setErrCountO_epoch (s : State) (c : Byte) : (s.setErrCountO c).epoch = s.epoch := rfl
@[simp] theorem setErrCountO_rxBuf0 (s : State) (c : Byte) : (s.setErrCountO c).rxBuf0 = s.rxBuf0 := rfl
@[simp] theorem setErrCountO_rxBuf1 (s : State) (c : Byte) : (s.setErrCountO c).rxBuf1 = s.rxBuf1 := rfl
@[simp] theorem setErrCountO_rxLen (s : State) (c : Byte) : (s.setErrCountO c).rxLen = s.rxLen := rfl
@[simp] theorem setErrCountO_rxActive (s : State) (c : Byte) : (s.setErrCountO c).rxActive = s.rxActive := rfl
@[simp] theorem setErrCountO_errCount (s : State) (c : Byte) : (s.setErrCountO c).errCount = s.errCount := rfl
@[simp] theorem setErrCountO_txBuf (s : State) (c : Byte) : (s.setErrCountO c).txBuf = s.txBuf := rfl
@[simp] theorem setErrCountO_txLen (s : State) (c : Byte) : (s.setErrCountO c).txLen = s.txLen := rfl
@[simp] theorem setErrCountO_seqLast (s : State) (c : Byte) : (s.setErrCountO c).seqLast = s.seqLast := rfl
@[simp] theorem setErrCountO_inputs (s : State) (c : Byte) : (s.setErrCountO c).inputs = s.inputs := rfl
@[simp] theorem setErrCountO_out_rx (s : State) (c : Byte) : (s.setErrCountO c).out.rx = s.out.rx := rfl
@[simp] theorem setErrCountO_out_bld (s : State) (c : Byte) : (s.setErrCountO c).out.bld = s.out.bld := rfl
@[simp] theorem setErrCountO_out_rxrdData (s : State) (c : Byte) :
    (s.setErrCountO c).out.rxrdData = s.out.rxrdData := rfl
@[simp] theorem setErrCountO_out_txrdData (s : State) (c : Byte) :
    (s.setErrCountO c).out.txrdData = s.out.txrdData := rfl
@[simp] theorem setErrCountO_out_txLenO (s : State) (c : Byte) : (s.setErrCountO c).out.txLenO = s.out.txLenO := rfl
@[simp] theorem setErrCountO_out_errCountO (s : State) (c : Byte) : (s.setErrCountO c).out.errCountO = some c := rfl
@[simp] theorem setErrCountO_mem (s : State) (c : Byte) (sp : Space) :
    (s.setErrCountO c).mem sp = s.mem sp := by cases sp <;> rfl
@[simp] theorem memRead_setErrCountO (s : State) (c : Byte) (sp : Space) (i : Nat) :
    memRead sp i (s.setErrCountO c) = memRead sp i s := by cases sp <;> rfl

@[simp] theorem clearOut_cap (s : State) : s.clearOut.cap = s.cap := rfl
@[simp] theorem clearOut_epoch (s : State) : s.clearOut.epoch = s.epoch := rfl
@[simp] theorem clearOut_rxBuf0 (s : State) : s.clearOut.rxBuf0 = s.rxBuf0 := rfl
@[simp] theorem clearOut_rxBuf1 (s : State) : s.clearOut.rxBuf1 = s.rxBuf1 := rfl
@[simp] theorem clearOut_rxLen (s : State) : s.clearOut.rxLen = s.rxLen := rfl
@[simp] theorem clearOut_rxActive (s : State) : s.clearOut.rxActive = s.rxActive := rfl
@[simp] theorem clearOut_errCount (s : State) : s.clearOut.errCount = s.errCount := rfl
@[simp] theorem clearOut_txBuf (s : State) : s.clearOut.txBuf = s.txBuf := rfl
@[simp] theorem clearOut_txLen (s : State) : s.clearOut.txLen = s.txLen := rfl
@[simp] theorem clearOut_seqLast (s : State) : s.clearOut.seqLast = s.seqLast := rfl
@[simp] theorem clearOut_inputs (s : State) : s.clearOut.inputs = s.inputs := rfl
@[simp] theorem clearOut_out_rx (s : State) : s.clearOut.out.rx = [] := rfl
@[simp] theorem clearOut_out_bld (s : State) : s.clearOut.out.bld = .idle := rfl
@[simp] theorem clearOut_out_rxrdData (s : State) : s.clearOut.out.rxrdData = none := rfl
@[simp] theorem clearOut_out_txrdData (s : State) : s.clearOut.out.txrdData = none := rfl
@[simp] theorem clearOut_out_txLenO (s : State) : s.clearOut.out.txLenO = none := rfl
@[simp] theorem clearOut_out_errCountO (s : State) : s.clearOut.out.errCountO = none := rfl
@[simp] theorem clearOut_mem (s : State) (sp : Space) : s.clearOut.mem sp = s.mem sp := by cases sp <;> rfl
@[simp] theorem memRead_clearOut (s : State) (sp : Space) (i : Nat) :
    memRead sp i s.clearOut = memRead sp i s := by cases sp <;> rfl

@[simp] theorem setInputs_cap (s : State) (rest : List Input) : (s.setInputs rest).cap = s.cap := rfl
@[simp] theorem setInputs_epoch (s : State) (rest : List Input) : (s.setInputs rest).epoch = s.epoch := rfl
@[simp] theorem setInputs_rxBuf0 (s : State) (rest : List Input) : (s.setInputs rest).rxBuf0 = s.rxBuf0 := rfl
@[simp] theorem setInputs_rxBuf1 (s : State) (rest : List Input) : (s.setInputs rest).rxBuf1 = s.rxBuf1 := rfl
@[simp] theorem setInputs_rxLen (s : State) (rest : List Input) : (s.setInputs rest).rxLen = s.rxLen := rfl
@[simp] theorem setInputs_rxActive (s : State) (rest : List Input) : (s.setInputs rest).rxActive = s.rxActive := rfl
@[simp] theorem setInputs_errCount (s : State) (rest : List Input) : (s.setInputs rest).errCount = s.errCount := rfl
@[simp] theorem setInputs_txBuf (s : State) (rest : List Input) : (s.setInputs rest).txBuf = s.txBuf := rfl
@[simp] theorem setInputs_txLen (s : State) (rest : List Input) : (s.setInputs rest).txLen = s.txLen := rfl
@[simp] theorem setInputs_seqLast (s : State) (rest : List Input) : (s.setInputs rest).seqLast = s.seqLast := rfl
@[simp] theorem setInputs_inputs (s : State) (rest : List Input) : (s.setInputs rest).inputs = rest := rfl
@[simp] theorem setInputs_out (s : State) (rest : List Input) : (s.setInputs rest).out = s.out := rfl
@[simp] theorem setInputs_mem (s : State) (rest : List Input) (sp : Space) :
    (s.setInputs rest).mem sp = s.mem sp := by cases sp <;> rfl
@[simp] theorem memRead_setInputs (s : State) (rest : List Input) (sp : Space) (i : Nat) :
    memRead sp i (s.setInputs rest) = memRead sp i s := by cases sp <;> rfl

@[simp] theorem setRxLen_cap (s : State) (n : Half) : (s.setRxLen n).cap = s.cap := rfl
@[simp] theorem setRxLen_epoch (s : State) (n : Half) : (s.setRxLen n).epoch = s.epoch := rfl
@[simp] theorem setRxLen_rxBuf0 (s : State) (n : Half) : (s.setRxLen n).rxBuf0 = s.rxBuf0 := rfl
@[simp] theorem setRxLen_rxBuf1 (s : State) (n : Half) : (s.setRxLen n).rxBuf1 = s.rxBuf1 := rfl
@[simp] theorem setRxLen_rxLen (s : State) (n : Half) : (s.setRxLen n).rxLen = n := rfl
@[simp] theorem setRxLen_rxActive (s : State) (n : Half) : (s.setRxLen n).rxActive = s.rxActive := rfl
@[simp] theorem setRxLen_errCount (s : State) (n : Half) : (s.setRxLen n).errCount = s.errCount := rfl
@[simp] theorem setRxLen_txBuf (s : State) (n : Half) : (s.setRxLen n).txBuf = s.txBuf := rfl
@[simp] theorem setRxLen_txLen (s : State) (n : Half) : (s.setRxLen n).txLen = s.txLen := rfl
@[simp] theorem setRxLen_seqLast (s : State) (n : Half) : (s.setRxLen n).seqLast = s.seqLast := rfl
@[simp] theorem setRxLen_inputs (s : State) (n : Half) : (s.setRxLen n).inputs = s.inputs := rfl
@[simp] theorem setRxLen_out (s : State) (n : Half) : (s.setRxLen n).out = s.out := rfl
@[simp] theorem setRxLen_mem (s : State) (n : Half) (sp : Space) :
    (s.setRxLen n).mem sp = s.mem sp := by cases sp <;> rfl
@[simp] theorem memRead_setRxLen (s : State) (n : Half) (sp : Space) (i : Nat) :
    memRead sp i (s.setRxLen n) = memRead sp i s := by cases sp <;> rfl

@[simp] theorem raiseError_cap (e : RxError) (s : State) : (raiseError e s).cap = s.cap := rfl
@[simp] theorem raiseError_epoch (e : RxError) (s : State) : (raiseError e s).epoch = s.epoch := rfl
@[simp] theorem raiseError_rxBuf0 (e : RxError) (s : State) : (raiseError e s).rxBuf0 = s.rxBuf0 := rfl
@[simp] theorem raiseError_rxBuf1 (e : RxError) (s : State) : (raiseError e s).rxBuf1 = s.rxBuf1 := rfl
@[simp] theorem raiseError_rxLen (e : RxError) (s : State) : (raiseError e s).rxLen = 0#16 := rfl
@[simp] theorem raiseError_rxActive (e : RxError) (s : State) : (raiseError e s).rxActive = s.rxActive := rfl
@[simp] theorem raiseError_errCount (e : RxError) (s : State) : (raiseError e s).errCount = satInc s.errCount := rfl
@[simp] theorem raiseError_txBuf (e : RxError) (s : State) : (raiseError e s).txBuf = s.txBuf := rfl
@[simp] theorem raiseError_txLen (e : RxError) (s : State) : (raiseError e s).txLen = s.txLen := rfl
@[simp] theorem raiseError_seqLast (e : RxError) (s : State) : (raiseError e s).seqLast = s.seqLast := rfl
@[simp] theorem raiseError_inputs (e : RxError) (s : State) : (raiseError e s).inputs = s.inputs := rfl
@[simp] theorem raiseError_out_rx (e : RxError) (s : State) : (raiseError e s).out.rx = [none] := rfl
@[simp] theorem raiseError_out_bld (e : RxError) (s : State) : (raiseError e s).out.bld = s.out.bld := rfl
@[simp] theorem raiseError_out_rxrdData (e : RxError) (s : State) :
    (raiseError e s).out.rxrdData = s.out.rxrdData := rfl
@[simp] theorem raiseError_out_txrdData (e : RxError) (s : State) :
    (raiseError e s).out.txrdData = s.out.txrdData := rfl
@[simp] theorem raiseError_out_txLenO (e : RxError) (s : State) : (raiseError e s).out.txLenO = s.out.txLenO := rfl
@[simp] theorem raiseError_out_errCountO (e : RxError) (s : State) :
    (raiseError e s).out.errCountO = s.out.errCountO := rfl
@[simp] theorem raiseError_mem (e : RxError) (s : State) (sp : Space) :
    (raiseError e s).mem sp = s.mem sp := by cases sp <;> rfl
@[simp] theorem memRead_raiseError (e : RxError) (s : State) (sp : Space) (i : Nat) :
    memRead sp i (raiseError e s) = memRead sp i s := by cases sp <;> rfl

@[simp] theorem failBuild_cap (s : State) : (failBuild s).cap = s.cap := rfl
@[simp] theorem failBuild_epoch (s : State) : (failBuild s).epoch = s.epoch := rfl
@[simp] theorem failBuild_rxBuf0 (s : State) : (failBuild s).rxBuf0 = s.rxBuf0 := rfl
@[simp] theorem failBuild_rxBuf1 (s : State) : (failBuild s).rxBuf1 = s.rxBuf1 := rfl
@[simp] theorem failBuild_rxLen (s : State) : (failBuild s).rxLen = s.rxLen := rfl
@[simp] theorem failBuild_rxActive (s : State) : (failBuild s).rxActive = s.rxActive := rfl
@[simp] theorem failBuild_errCount (s : State) : (failBuild s).errCount = s.errCount := rfl
@[simp] theorem failBuild_txBuf (s : State) : (failBuild s).txBuf = s.txBuf := rfl
@[simp] theorem failBuild_txLen (s : State) : (failBuild s).txLen = s.txLen := rfl
@[simp] theorem failBuild_seqLast (s : State) : (failBuild s).seqLast = s.seqLast := rfl
@[simp] theorem failBuild_inputs (s : State) : (failBuild s).inputs = s.inputs := rfl
@[simp] theorem failBuild_out_rx (s : State) : (failBuild s).out.rx = s.out.rx := rfl
@[simp] theorem failBuild_out_bld (s : State) : (failBuild s).out.bld = .capacityExceeded := rfl
@[simp] theorem failBuild_out_rxrdData (s : State) : (failBuild s).out.rxrdData = s.out.rxrdData := rfl
@[simp] theorem failBuild_out_txrdData (s : State) : (failBuild s).out.txrdData = s.out.txrdData := rfl
@[simp] theorem failBuild_out_txLenO (s : State) : (failBuild s).out.txLenO = s.out.txLenO := rfl
@[simp] theorem failBuild_out_errCountO (s : State) : (failBuild s).out.errCountO = s.out.errCountO := rfl
@[simp] theorem failBuild_mem (s : State) (sp : Space) : (failBuild s).mem sp = s.mem sp := by cases sp <;> rfl
@[simp] theorem memRead_failBuild (s : State) (sp : Space) (i : Nat) :
    memRead sp i (failBuild s) = memRead sp i s := by cases sp <;> rfl

@[simp] theorem completeFrameRx_cap (s : State) : (completeFrameRx s).cap = s.cap := rfl
@[simp] theorem completeFrameRx_epoch (s : State) : (completeFrameRx s).epoch = s.epoch := rfl
@[simp] theorem completeFrameRx_rxBuf0 (s : State) : (completeFrameRx s).rxBuf0 = s.rxBuf0 := rfl
@[simp] theorem completeFrameRx_rxBuf1 (s : State) : (completeFrameRx s).rxBuf1 = s.rxBuf1 := rfl
@[simp] theorem completeFrameRx_rxLen (s : State) : (completeFrameRx s).rxLen = 0#16 := rfl
@[simp] theorem completeFrameRx_rxActive (s : State) : (completeFrameRx s).rxActive = otherBuf s.rxActive := rfl
@[simp] theorem completeFrameRx_errCount (s : State) : (completeFrameRx s).errCount = s.errCount := rfl
@[simp] theorem completeFrameRx_txBuf (s : State) : (completeFrameRx s).txBuf = s.txBuf := rfl
@[simp] theorem completeFrameRx_txLen (s : State) : (completeFrameRx s).txLen = s.txLen := rfl
@[simp] theorem completeFrameRx_seqLast (s : State) : (completeFrameRx s).seqLast = s.seqLast := rfl
@[simp] theorem completeFrameRx_inputs (s : State) : (completeFrameRx s).inputs = s.inputs := rfl
@[simp] theorem completeFrameRx_out_rx (s : State) :
    (completeFrameRx s).out.rx = [some { buf := s.rxActive, len := s.rxLen }] := rfl
@[simp] theorem completeFrameRx_out_bld (s : State) : (completeFrameRx s).out.bld = s.out.bld := rfl
@[simp] theorem completeFrameRx_out_rxrdData (s : State) : (completeFrameRx s).out.rxrdData = s.out.rxrdData := rfl
@[simp] theorem completeFrameRx_out_txrdData (s : State) : (completeFrameRx s).out.txrdData = s.out.txrdData := rfl
@[simp] theorem completeFrameRx_out_txLenO (s : State) : (completeFrameRx s).out.txLenO = s.out.txLenO := rfl
@[simp] theorem completeFrameRx_out_errCountO (s : State) : (completeFrameRx s).out.errCountO = s.out.errCountO := rfl
@[simp] theorem completeFrameRx_mem (s : State) (sp : Space) :
    (completeFrameRx s).mem sp = s.mem sp := by cases sp <;> rfl
@[simp] theorem memRead_completeFrameRx (s : State) (sp : Space) (i : Nat) :
    memRead sp i (completeFrameRx s) = memRead sp i s := by cases sp <;> rfl

@[simp] theorem resetBlock_cap (s : State) : (resetBlock s).cap = s.cap := rfl
@[simp] theorem resetBlock_epoch (s : State) : (resetBlock s).epoch = s.epoch + 1 := rfl
@[simp] theorem resetBlock_rxBuf0 (s : State) : (resetBlock s).rxBuf0 = [] := rfl
@[simp] theorem resetBlock_rxBuf1 (s : State) : (resetBlock s).rxBuf1 = [] := rfl
@[simp] theorem resetBlock_rxLen (s : State) : (resetBlock s).rxLen = 0#16 := rfl
@[simp] theorem resetBlock_rxActive (s : State) : (resetBlock s).rxActive = .buf0 := rfl
@[simp] theorem resetBlock_errCount (s : State) : (resetBlock s).errCount = 0#8 := rfl
@[simp] theorem resetBlock_txBuf (s : State) : (resetBlock s).txBuf = [] := rfl
@[simp] theorem resetBlock_txLen (s : State) : (resetBlock s).txLen = 0#16 := rfl
@[simp] theorem resetBlock_seqLast (s : State) : (resetBlock s).seqLast = 0#8 := rfl
@[simp] theorem resetBlock_inputs (s : State) : (resetBlock s).inputs = s.inputs := rfl
@[simp] theorem resetBlock_out (s : State) : (resetBlock s).out = s.out := rfl
@[simp] theorem resetBlock_mem (s : State) (sp : Space) : (resetBlock s).mem sp = [] := by cases sp <;> rfl

@[simp] theorem setMem_cap (s : State) (sp : Space) (m : Memory) : (s.setMem sp m).cap = s.cap := by cases sp <;> rfl
@[simp] theorem setMem_epoch (s : State) (sp : Space) (m : Memory) :
    (s.setMem sp m).epoch = s.epoch := by cases sp <;> rfl
@[simp] theorem setMem_rxLen (s : State) (sp : Space) (m : Memory) :
    (s.setMem sp m).rxLen = s.rxLen := by cases sp <;> rfl
@[simp] theorem setMem_rxActive (s : State) (sp : Space) (m : Memory) :
    (s.setMem sp m).rxActive = s.rxActive := by cases sp <;> rfl
@[simp] theorem setMem_errCount (s : State) (sp : Space) (m : Memory) :
    (s.setMem sp m).errCount = s.errCount := by cases sp <;> rfl
@[simp] theorem setMem_txLen (s : State) (sp : Space) (m : Memory) :
    (s.setMem sp m).txLen = s.txLen := by cases sp <;> rfl
@[simp] theorem setMem_seqLast (s : State) (sp : Space) (m : Memory) :
    (s.setMem sp m).seqLast = s.seqLast := by cases sp <;> rfl
@[simp] theorem setMem_inputs (s : State) (sp : Space) (m : Memory) :
    (s.setMem sp m).inputs = s.inputs := by cases sp <;> rfl
@[simp] theorem setMem_out (s : State) (sp : Space) (m : Memory) : (s.setMem sp m).out = s.out := by cases sp <;> rfl

@[simp] theorem setMem_mem_same (s : State) (sp : Space) (m : Memory) : (s.setMem sp m).mem sp = m := by
  cases sp <;> rfl

theorem setMem_mem_other (s : State) (m : Memory) {sp sp' : Space} (h : sp' ≠ sp) :
    (s.setMem sp m).mem sp' = s.mem sp' := by
  cases sp <;> cases sp' <;> first | rfl | exact absurd rfl h

theorem mem_rxbuf0 (s : State) : s.mem .rxbuf0 = s.rxBuf0 := rfl
theorem mem_rxbuf1 (s : State) : s.mem .rxbuf1 = s.rxBuf1 := rfl
theorem mem_txbuf (s : State) : s.mem .txbuf = s.txBuf := rfl

@[simp] theorem setMem_rx_txBuf (s : State) (k : BufId) (m : Memory) :
    (s.setMem (rxSpace k) m).txBuf = s.txBuf := by cases k <;> rfl

@[simp] theorem setRx_out (s : State) (r : List RxResult) : (s.setRx r).out = { s.out with rx := r } := rfl

@[simp] theorem setRx_setRx (s : State) (r r' : List RxResult) : (s.setRx r).setRx r' = s.setRx r' := rfl

@[simp] theorem setRx_self (s : State) : s.setRx s.out.rx = s := rfl

end Sys2Proof.Machine
end

