-- ==== Sys2Proof/Laws/Ops.lean ====
section
/-! SUPPORT. Laws/Ops.lean: what the shared operations over outcomes and buffer spaces can do. -/

namespace Sys2Proof.Machine

@[simp] theorem andThen_next (s : State) (f : State → Host.Outcome State Fault Refusal) :
    andThen (.next s) f = f s := rfl

@[simp] theorem andThen_fault (r : Fault) (f : State → Host.Outcome State Fault Refusal) :
    andThen (.fault r) f = .fault r := rfl

@[simp] theorem andThen_refused (r : Refusal) (f : State → Host.Outcome State Fault Refusal) :
    andThen (.refused r) f = .refused r := rfl

theorem andThen_eq_next {o : Host.Outcome State Fault Refusal} {f : State → Host.Outcome State Fault Refusal}
    {t : State} : andThen o f = .next t ↔ ∃ s, o = .next s ∧ f s = .next t := by
  cases o <;> simp [andThen]

theorem andThen_assoc (o : Host.Outcome State Fault Refusal) (f g : State → Host.Outcome State Fault Refusal) :
    andThen (andThen o f) g = andThen o (fun s => andThen (f s) g) := by cases o <;> rfl

theorem memWrite_next {sp : Space} {i : Nat} (v : Byte) {s : State} (h : i < s.cap) :
    memWrite sp i v s = .next (s.setMem sp (Memory.insert (s.mem sp) i v)) := if_pos h

theorem memWrite_fault {sp : Space} {i : Nat} (v : Byte) {s : State} (h : s.cap ≤ i) :
    memWrite sp i v s = .fault (.outOfSpace sp i) := if_neg (not_lt.mpr h)

theorem memRead_congr {sp : Space} {i : Nat} {s t : State} (he : t.epoch = s.epoch)
    (hl : Memory.lookup (t.mem sp) i = Memory.lookup (s.mem sp) i) : memRead sp i t = memRead sp i s := by
  simp only [memRead, he, hl]

theorem memRead_of_lookup {sp : Space} {i : Nat} {s : State} {v : Byte} (h : Memory.lookup (s.mem sp) i = some v) :
    memRead sp i s = v := by simp [memRead, h]

/-- Another byte, or the same byte of another space, is left alone by a write. -/
theorem memRead_setMem_insert (s : State) (sp sp' : Space) (i j : Nat) (v : Byte) :
    memRead sp' j (s.setMem sp (Memory.insert (s.mem sp) i v)) =
      if sp' = sp ∧ j = i then v else memRead sp' j s := by
  by_cases hs : sp' = sp
  · subst hs
    simp only [memRead, setMem_epoch, setMem_mem_same, Memory.lookup_insert]
    by_cases hj : j = i <;> simp [hj]
  · simp only [memRead, setMem_epoch, setMem_mem_other _ _ hs, hs, false_and, if_false]

theorem rxSpace_ne_txbuf (k : BufId) : rxSpace k ≠ .txbuf := by cases k <;> simp [rxSpace]

theorem rxSpace_other_ne (k : BufId) : rxSpace (otherBuf k) ≠ rxSpace k := by cases k <;> simp [rxSpace, otherBuf]

theorem otherBuf_ne (k : BufId) : otherBuf k ≠ k := by cases k <;> simp [otherBuf]

@[simp] theorem otherBuf_otherBuf (k : BufId) : otherBuf (otherBuf k) = k := by cases k <;> rfl

@[simp] theorem length_readBytes (sp : Space) (n : Nat) (s : State) : (readBytes sp n s).length = n := by
  simp [readBytes]

theorem getElem?_readBytes (sp : Space) {n k : Nat} (s : State) (h : k < n) :
    (readBytes sp n s)[k]? = some (memRead sp k s) := by simp [readBytes, h]

/-- The bytes read are a given list when each read is its element. -/
theorem readBytes_eq {sp : Space} {s : State} {bs : List Byte}
    (h : ∀ k < bs.length, some (memRead sp k s) = bs[k]?) : readBytes sp bs.length s = bs := by
  apply List.ext_getElem?
  intro k
  by_cases hk : k < bs.length
  · rw [getElem?_readBytes sp s hk, h k hk]
  · rw [List.getElem?_eq_none (by simpa using hk), List.getElem?_eq_none (by simpa using hk)]

theorem satInc_toNat (c : Byte) : (satInc c).toNat = min 255 (c.toNat + 1) := by
  unfold satInc Config.errMax
  split_ifs with h
  · subst h; rfl
  · have : c.toNat ≠ 255 := fun h' => h (BitVec.eq_of_toNat_eq (by simpa using h'))
    have := c.isLt
    simp only [BitVec.toNat_add, BitVec.toNat_ofNat]
    omega

end Sys2Proof.Machine
end

