-- ==== Sys2Proof/Laws/Checksum.lean ====
section
/-! SUPPORT. Laws/Checksum.lean: the laws of the checksum functions (spec/42_checksum.md R140 to R142). -/

namespace Sys2Proof.Machine

/-- The modulo-256 sum of a list of bytes. -/
def sumBytes (bs : List Byte) : Byte := bs.foldr (fun b acc => b + acc) 0#8

@[simp] theorem sumBytes_nil : sumBytes [] = 0#8 := rfl

@[simp] theorem sumBytes_cons (b : Byte) (bs : List Byte) : sumBytes (b :: bs) = b + sumBytes bs := rfl

theorem sumBytes_append (bs cs : List Byte) : sumBytes (bs ++ cs) = sumBytes bs + sumBytes cs := by
  induction bs with
  | nil => simp
  | cons b bs ih => simp [ih, BitVec.add_assoc]

theorem chkSum_congr {f g : Nat → Byte} {lo hi : Nat} (h : ∀ i, lo ≤ i → i ≤ hi → f i = g i) :
    chkSum f lo hi = chkSum g lo hi := by
  unfold chkSum
  have key : ∀ l : List Nat, (∀ i ∈ l, f i = g i) →
      l.foldr (fun i acc => f i + acc) 0#8 = l.foldr (fun i acc => g i + acc) 0#8 := by
    intro l
    induction l with
    | nil => intro _; rfl
    | cons a l ih =>
      intro hl
      simp only [List.foldr_cons, hl a (by simp), ih (fun i hi => hl i (by simp [hi]))]
  apply key
  intro i hi'
  rw [List.mem_range'_1] at hi'
  exact h i hi'.1 (by omega)

/-- The sum over consecutive indexes is the sum of the bytes that stand there. -/
theorem chkSum_eq_sumBytes (l : List Byte) : ∀ (f : Nat → Byte) (lo hi : Nat), hi + 1 = lo + l.length →
    (∀ k < l.length, some (f (lo + k)) = l[k]?) → chkSum f lo hi = sumBytes l := by
  have key : ∀ (l : List Byte) (f : Nat → Byte) (lo : Nat), (∀ k < l.length, some (f (lo + k)) = l[k]?) →
      (List.range' lo l.length).foldr (fun i acc => f i + acc) 0#8 = sumBytes l := by
    intro l
    induction l with
    | nil => intro f lo _; rfl
    | cons b l ih =>
      intro f lo h
      have h0 : f lo = b := by simpa using h 0 (by simp)
      have hs : ∀ k < l.length, some (f (lo + 1 + k)) = l[k]? := by
        intro k hk
        have := h (k + 1) (by simpa using hk)
        rw [List.getElem?_cons_succ] at this
        rw [← this]
        congr 2
        omega
      simp only [List.length_cons, List.range'_succ, List.foldr_cons, sumBytes_cons, h0, ih f (lo + 1) hs]
  intro f lo hi hlen h
  unfold chkSum
  have : hi + 1 - lo = l.length := by omega
  rw [this]
  exact key l f lo h

theorem chkSum_snoc (f : Nat → Byte) {lo hi : Nat} (h : lo ≤ hi + 1) :
    chkSum f lo (hi + 1) = chkSum f lo hi + f (hi + 1) := by
  obtain ⟨n, hn⟩ : ∃ n, hi + 1 = lo + n := ⟨hi + 1 - lo, by omega⟩
  have get : ∀ (m : Nat) k, k < ((List.range m).map (fun k => f (lo + k))).length →
      some (f (lo + k)) = ((List.range m).map (fun k => f (lo + k)))[k]? := by
    intro m k hk
    have : k < m := by simpa using hk
    simp [this]
  rw [chkSum_eq_sumBytes ((List.range (n + 1)).map (fun k => f (lo + k))) f lo (hi + 1) (by simp; omega) (get _),
    chkSum_eq_sumBytes ((List.range n).map (fun k => f (lo + k))) f lo hi (by simp; omega) (get _),
    List.range_succ, List.map_append, sumBytes_append]
  simp [hn]

/-- CHK_VERIFY as the sum of the rest and the checksum byte (R142). -/
theorem chkVerify_iff (f : Nat → Byte) {len : Nat} (h : 4 ≤ len) :
    chkVerify f len = true ↔ chkSum f 3 (len - 2) + f (len - 1) = 0xFF#8 := by
  have h1 : len - 1 = len - 2 + 1 := by omega
  rw [chkVerify, beq_iff_eq, h1, chkSum_snoc f (by omega)]
  rfl

theorem chkVerify_congr {f g : Nat → Byte} {len : Nat} (h : ∀ i, 3 ≤ i → i < len → f i = g i) (hl : 1 ≤ len) :
    chkVerify f len = chkVerify g len := by
  unfold chkVerify
  rw [chkSum_congr (fun i h1 h2 => h i h1 (by omega))]

theorem byteAt_eq {f : List Byte} {i : Nat} (h : i < f.length) : some (byteAt f i) = f[i]? := by
  simp [byteAt, List.getD, List.getElem?_eq_getElem h]

/-- The checksum appended is the complement of the sum of the bytes from index 3 on (R141). -/
theorem sealFrame_eq (b0 b1 b2 : Byte) (body : List Byte) :
    sealFrame (b0 :: b1 :: b2 :: body) = b0 :: b1 :: b2 :: (body ++ [0xFF#8 - sumBytes body]) := by
  have : chkSum (byteAt (b0 :: b1 :: b2 :: body)) 3 ((b0 :: b1 :: b2 :: body).length + 1 - 2) = sumBytes body := by
    apply chkSum_eq_sumBytes
    · simp only [List.length_cons]
      omega
    · intro k hk
      rw [byteAt_eq (by simp only [List.length_cons]; omega)]
      have : 3 + k = k + 1 + 1 + 1 := by omega
      rw [this, List.getElem?_cons_succ, List.getElem?_cons_succ, List.getElem?_cons_succ]
  simp only [sealFrame, chkCompute, this, List.cons_append]
  rfl

end Sys2Proof.Machine
end

