-- ==== Sys2Proof/Laws/Decode.lean ====
section
/-! SUPPORT. Laws/Decode.lean: the small facts of the encodings: fields split and joined, the payload bus, and when the
bytes on the wire are one frame. -/

namespace Sys2Proof.Machine

/-- Appended fields are read back. -/
theorem extractLsb'_append_high {n m : Nat} (a : BitVec n) (b : BitVec m) : (a ++ b).extractLsb' m n = a := by
  ext i hi
  simp [BitVec.getLsbD_append, hi]

theorem extractLsb'_append_low {n m : Nat} (a : BitVec n) (b : BitVec m) : (a ++ b).extractLsb' 0 m = b := by
  ext i hi
  simp [BitVec.getLsbD_append, hi]

theorem bufOfBit_bufBit (k : BufId) : bufOfBit (bufBit k) = k := by cases k <;> rfl

/-- The payload bus carries its bytes (30_encoding.md R82). -/
theorem payloadOfBus_busOfPayload (bs : List Byte) : payloadOfBus bs.length (busOfPayload bs) = bs := by
  induction bs with
  | nil => rfl
  | cons b bs ih =>
    have hb := b.isLt
    have hdiv : (b.toNat + 256 * busOfPayload bs) / 256 = busOfPayload bs := by omega
    simp only [busOfPayload, List.length_cons, payloadOfBus, hdiv, ih]
    congr 1
    apply BitVec.eq_of_toNat_eq
    simp only [BitVec.toNat_ofNat]
    omega

/-- What the bus holds beyond the payload is not read (R89). -/
theorem payloadOfBus_mod (n : Nat) : ∀ a : Nat, payloadOfBus n (a % 256 ^ n) = payloadOfBus n a := by
  induction n with
  | zero => intro a; rfl
  | succ n ih =>
    intro a
    simp only [payloadOfBus]
    congr 1
    · apply BitVec.eq_of_toNat_eq
      simp only [BitVec.toNat_ofNat]
      exact Nat.mod_mod_of_dvd _ ⟨256 ^ n, by rw [Nat.pow_succ, Nat.mul_comm]⟩
    · rw [Nat.pow_succ, Nat.mul_comm (256 ^ n), Nat.mod_mul_right_div_self, ih]

@[simp] theorem length_payloadOfBus (n : Nat) : ∀ a : Nat, (payloadOfBus n a).length = n := by
  induction n with
  | zero => intro a; rfl
  | succ n ih => intro a; simp [payloadOfBus, ih]

/-- A length field split into bytes and joined again (R72). -/
theorem lengthField_split {n : Nat} (h : n < 65536) : lengthField (hiByte n) (loByte n) = n := by
  simp only [lengthField, hiByte, loByte, BitVec.toNat_ofNat]
  omega

/-- A length field joined and split again (R72). -/
theorem hiByte_lengthField (hi lo : Byte) : hiByte (lengthField hi lo) = hi := by
  have h := lo.isLt
  apply BitVec.eq_of_toNat_eq
  simp only [lengthField, hiByte, BitVec.toNat_ofNat]
  have := hi.isLt
  omega

theorem loByte_lengthField (hi lo : Byte) : loByte (lengthField hi lo) = lo := by
  have h := lo.isLt
  apply BitVec.eq_of_toNat_eq
  simp only [lengthField, loByte, BitVec.toNat_ofNat]
  omega

/-- An address joined from its big-endian bytes (20_memory.md R52). -/
theorem joinAddr_addrBytes (a : Addr) :
    joinAddr (a.extractLsb' 56 8) (a.extractLsb' 48 8) (a.extractLsb' 40 8) (a.extractLsb' 32 8)
      (a.extractLsb' 24 8) (a.extractLsb' 16 8) (a.extractLsb' 8 8) (a.extractLsb' 0 8) = a := by
  unfold joinAddr
  ext i hi
  simp only [BitVec.getElem_append, BitVec.getElem_extractLsb']
  split_ifs <;> (rw [← BitVec.getLsbD_eq_getElem]; congr 1; omega)

/-- The eight bytes of an address joined from bytes (R52). -/
theorem addrBytes_joinAddr (b0 b1 b2 b3 b4 b5 b6 b7 : Byte) :
    addrBytes (joinAddr b0 b1 b2 b3 b4 b5 b6 b7) = [b0, b1, b2, b3, b4, b5, b6, b7] := by
  have skip : ∀ {n : Nat} (a : BitVec n) (b : Byte) (k : Nat), (a ++ b).extractLsb' (k + 8) 8 = a.extractLsb' k 8 := by
    intro n a b k
    ext i hi
    simp only [BitVec.getElem_extractLsb', BitVec.getLsbD_append]
    rw [if_neg (by omega)]
    congr 1
    omega
  have whole : ∀ b : Byte, b.extractLsb' 0 8 = b := by intro b; ext i hi; simp
  unfold addrBytes joinAddr
  rw [skip _ b7 48, skip _ b6 40, skip _ b5 32, skip _ b4 24, skip _ b3 16, skip _ b2 8, skip _ b1 0,
    skip _ b7 40, skip _ b6 32, skip _ b5 24, skip _ b4 16, skip _ b3 8, skip _ b2 0,
    skip _ b7 32, skip _ b6 24, skip _ b5 16, skip _ b4 8, skip _ b3 0,
    skip _ b7 24, skip _ b6 16, skip _ b5 8, skip _ b4 0, skip _ b7 16, skip _ b6 8, skip _ b5 0,
    skip _ b7 8, skip _ b6 0, skip _ b7 0]
  simp only [extractLsb'_append_low, whole]

/-- The bytes on the wire that are one frame (30_encoding.md R79). -/
theorem decodeWire_ok {bytes : List Byte} {i : Instr} : decodeWire bytes = .ok i ↔
    ∃ hi lo tail, bytes = Config.start :: hi :: lo :: tail ∧ tail.length = lengthField hi lo + 1 ∧
      i = decodeTail tail := by
  constructor
  · intro h
    unfold decodeWire at h
    split at h
    · cases h
    · split_ifs at h with h0
      split at h
      · split_ifs at h with h1 h2
        cases h
        exact ⟨_, _, _, by rw [not_not.mp h0], by omega, rfl⟩
      · cases h
  · rintro ⟨hi, lo, tail, rfl, hl, rfl⟩
    simp only [decodeWire]
    rw [if_neg (fun h => h rfl), if_neg (by omega), if_neg (by omega)]

end Sys2Proof.Machine
end

