-- ==== Sys2Proof/Laws/Builder.lean ====
section
/-! SUPPORT. Laws/Builder.lean: what a build can do, and the bytes of the frames it lays out. -/

namespace Sys2Proof.Machine

/-- The state a successful build leaves (R123). -/
def builtState (frame : List Byte) (len : Nat) (s : State) : State :=
  ({ s with seqLast := nextId s.seqLast, txBuf := Memory.insertAll s.txBuf 0 frame,
            txLen := BitVec.ofNat 16 len } : State).setBld .ok

theorem build_over {len : Nat} {frame : Byte → List Byte} {s : State} (h : s.cap < len) :
    build len frame s = .next (failBuild s) := if_pos h

theorem build_fits {len : Nat} {frame : Byte → List Byte} {s : State} (h : len ≤ s.cap) :
    build len frame s = .next (builtState (frame (nextId s.seqLast)) len s) := if_neg (not_lt.mpr h)

section built
variable (frame : List Byte) (len : Nat) (s : State)

@[simp] theorem builtState_cap : (builtState frame len s).cap = s.cap := rfl
@[simp] theorem builtState_epoch : (builtState frame len s).epoch = s.epoch := rfl
@[simp] theorem builtState_rxBuf0 : (builtState frame len s).rxBuf0 = s.rxBuf0 := rfl
@[simp] theorem builtState_rxBuf1 : (builtState frame len s).rxBuf1 = s.rxBuf1 := rfl
@[simp] theorem builtState_rxLen : (builtState frame len s).rxLen = s.rxLen := rfl
@[simp] theorem builtState_rxActive : (builtState frame len s).rxActive = s.rxActive := rfl
@[simp] theorem builtState_errCount : (builtState frame len s).errCount = s.errCount := rfl
@[simp] theorem builtState_txLen : (builtState frame len s).txLen = BitVec.ofNat 16 len := rfl
@[simp] theorem builtState_seqLast : (builtState frame len s).seqLast = nextId s.seqLast := rfl
@[simp] theorem builtState_inputs : (builtState frame len s).inputs = s.inputs := rfl
@[simp] theorem builtState_out : (builtState frame len s).out = { s.out with bld := .ok } := rfl

theorem builtState_mem_rx (k : BufId) : (builtState frame len s).mem (rxSpace k) = s.mem (rxSpace k) := by
  cases k <;> rfl

theorem builtState_mem_tx : (builtState frame len s).mem .txbuf = Memory.insertAll s.txBuf 0 frame := rfl

theorem lookup_builtState (j : Nat) :
    Memory.lookup ((builtState frame len s).mem .txbuf) j =
      if j < frame.length then frame[j]? else Memory.lookup s.txBuf j := by
  rw [builtState_mem_tx, Memory.lookup_insertAll]
  simp

theorem memRead_builtState_tx {j : Nat} (h : j < frame.length) :
    some (memRead .txbuf j (builtState frame len s)) = frame[j]? := by
  rw [memRead, lookup_builtState, if_pos h, List.getElem?_eq_getElem h]
  rfl

theorem memRead_builtState_tx_above {j : Nat} (h : frame.length ≤ j) :
    memRead .txbuf j (builtState frame len s) = memRead .txbuf j s := by
  refine memRead_congr rfl ?_
  rw [lookup_builtState, if_neg (by omega), mem_txbuf]

theorem memRead_builtState_rx (k : BufId) (j : Nat) :
    memRead (rxSpace k) j (builtState frame len s) = memRead (rxSpace k) j s :=
  memRead_congr rfl (by rw [builtState_mem_rx])

end built

theorem nextId_ne_zero (c : Byte) : nextId c ≠ 0#8 := by revert c; decide

theorem nextId_toNat (c : Byte) : (nextId c).toNat = c.toNat % 255 + 1 := by revert c; decide

theorem cmdFrame_eq (id : Byte) (p : List Byte) :
    cmdFrame id p = Config.start :: hiByte (p.length + 2) :: loByte (p.length + 2) ::
      ((Config.tAtCommand :: id :: p) ++ [0xFF#8 - sumBytes (Config.tAtCommand :: id :: p)]) := by
  unfold cmdFrame
  simp only [List.cons_append, List.nil_append]
  rw [sealFrame_eq]
  rfl

/-- The bytes of a data frame from the frame type to the last payload byte (R76). -/
def dataBody (id : Byte) (a : Addr) (p : List Byte) : List Byte :=
  Config.tTxRequest :: id :: (addrBytes (destAddr a) ++
    (Config.rsvdHi :: Config.rsvdLo :: Config.hopLimit :: Config.txOptions :: p))

theorem dataFrame_eq (id : Byte) (a : Addr) (p : List Byte) :
    dataFrame id a p = Config.start :: hiByte (p.length + 14) :: loByte (p.length + 14) ::
      (dataBody id a p ++ [0xFF#8 - sumBytes (dataBody id a p)]) := by
  unfold dataFrame
  simp only [List.cons_append, List.nil_append, List.append_assoc]
  rw [sealFrame_eq]
  rfl

@[simp] theorem length_addrBytes (a : Addr) : (addrBytes a).length = 8 := rfl

@[simp] theorem length_dataBody (id : Byte) (a : Addr) (p : List Byte) : (dataBody id a p).length = p.length + 14 := by
  simp only [dataBody, List.length_cons, List.length_append, length_addrBytes]
  omega

@[simp] theorem length_cmdFrame (id : Byte) (p : List Byte) : (cmdFrame id p).length = p.length + 6 := by
  simp [cmdFrame_eq]

@[simp] theorem length_dataFrame (id : Byte) (a : Addr) (p : List Byte) :
    (dataFrame id a p).length = p.length + 18 := by
  simp [dataFrame_eq]

end Sys2Proof.Machine
end

