-- ==== Sys2Proof/Laws/Receiver.lean ====
section
/-! SUPPORT. Laws/Receiver.lean: what ADD_BYTE and FEED can do, said once. -/

namespace Sys2Proof.Machine

section stored
variable (b : Byte) (s : State)

@[simp] theorem storedState_cap : (storedState b s).cap = s.cap := by simp [storedState]
@[simp] theorem storedState_epoch : (storedState b s).epoch = s.epoch := by simp [storedState]
@[simp] theorem storedState_rxLen : (storedState b s).rxLen = s.rxLen + 1#16 := by simp [storedState]
@[simp] theorem storedState_rxActive : (storedState b s).rxActive = s.rxActive := by simp [storedState]
@[simp] theorem storedState_errCount : (storedState b s).errCount = s.errCount := by simp [storedState]
@[simp] theorem storedState_txBuf : (storedState b s).txBuf = s.txBuf := by simp [storedState, activeSpace]
@[simp] theorem storedState_txLen : (storedState b s).txLen = s.txLen := by simp [storedState]
@[simp] theorem storedState_seqLast : (storedState b s).seqLast = s.seqLast := by simp [storedState]
@[simp] theorem storedState_inputs : (storedState b s).inputs = s.inputs := by simp [storedState]
@[simp] theorem storedState_out : (storedState b s).out = s.out := by simp [storedState]
@[simp] theorem activeSpace_storedState : activeSpace (storedState b s) = activeSpace s := by simp [activeSpace]

theorem storedState_mem_active :
    (storedState b s).mem (activeSpace s) = Memory.insert (s.mem (activeSpace s)) s.rxLen.toNat b := by
  simp [storedState]

theorem storedState_mem_other {sp : Space} (h : sp ≠ activeSpace s) : (storedState b s).mem sp = s.mem sp := by
  simp [storedState, setMem_mem_other _ _ h]

theorem memRead_storedState (sp : Space) (j : Nat) :
    memRead sp j (storedState b s) = if sp = activeSpace s ∧ j = s.rxLen.toNat then b else memRead sp j s := by
  simp only [storedState, memRead_setRxLen, memRead_setMem_insert]

theorem memRead_storedState_at : memRead (activeSpace s) s.rxLen.toNat (storedState b s) = b := by
  simp [memRead_storedState]

theorem memRead_storedState_ne {sp : Space} {j : Nat} (h : sp ≠ activeSpace s ∨ j ≠ s.rxLen.toNat) :
    memRead sp j (storedState b s) = memRead sp j s := by
  rw [memRead_storedState, if_neg (by tauto)]

/-- Bytes 1 and 2 are not written again once three bytes are in (10_state.md R24). -/
theorem frameN_storedState (h : 3 ≤ s.rxLen.toNat) : frameN (storedState b s) = frameN s := by
  unfold frameN
  rw [activeSpace_storedState, memRead_storedState_ne _ _ (.inr (by omega)),
    memRead_storedState_ne _ _ (.inr (by omega))]

theorem rxLen_storedState (h : s.rxLen.toNat < 65535) : (storedState b s).rxLen.toNat = s.rxLen.toNat + 1 := by
  simp only [storedState_rxLen, BitVec.toNat_add, BitVec.toNat_ofNat]
  omega

end stored

/-- The three ways ADD_BYTE starts (R100): full, stray, or stored. -/
inductive AddByteCase (b : Byte) (s : State) : Prop where
  | overflow (full : s.rxLen.toNat = s.cap)
  | desync (notFull : s.rxLen.toNat ≠ s.cap) (idle : s.rxLen = 0#16) (stray : b ≠ Config.start)
  | store (notFull : s.rxLen.toNat ≠ s.cap) (accepted : ¬ (s.rxLen = 0#16 ∧ b ≠ Config.start))

theorem addByteCase (b : Byte) (s : State) : AddByteCase b s := by
  by_cases h1 : s.rxLen.toNat = s.cap
  · exact .overflow h1
  · by_cases h2 : s.rxLen = 0#16 ∧ b ≠ Config.start
    · exact .desync h1 h2.1 h2.2
    · exact .store h1 h2

theorem execAddByte_overflow {b : Byte} {s : State} (h : s.rxLen.toNat = s.cap) :
    execAddByte b s = .next (raiseError .overflow s) := if_pos h

theorem execAddByte_desync {b : Byte} {s : State} (h1 : s.rxLen.toNat ≠ s.cap) (h2 : s.rxLen = 0#16)
    (h3 : b ≠ Config.start) : execAddByte b s = .next (raiseError .desync s) := by
  rw [execAddByte, if_neg h1, if_pos ⟨h2, h3⟩]

theorem execAddByte_store {b : Byte} {s : State} (h1 : s.rxLen.toNat < s.cap)
    (h2 : ¬ (s.rxLen = 0#16 ∧ b ≠ Config.start)) :
    execAddByte b s = .next (afterStore (storedState b s)) := by
  rw [execAddByte, if_neg (by omega), if_neg h2, memWrite_next _ h1]
  simp [storedState]

/-- A store outside the space faults; no state that meets the invariant is here. -/
theorem execAddByte_fault {b : Byte} {s : State} (h1 : s.cap < s.rxLen.toNat)
    (h2 : ¬ (s.rxLen = 0#16 ∧ b ≠ Config.start)) :
    execAddByte b s = .fault (.outOfSpace (activeSpace s) s.rxLen.toNat) := by
  rw [execAddByte, if_neg (by omega), if_neg h2, memWrite_fault _ (by omega), andThen_fault]

/-- Everything ADD_BYTE can answer as a next state. -/
theorem execAddByte_cases {b : Byte} {s t : State} (h : execAddByte b s = .next t) :
    (s.rxLen.toNat = s.cap ∧ t = raiseError .overflow s) ∨
    (s.rxLen.toNat ≠ s.cap ∧ s.rxLen = 0#16 ∧ b ≠ Config.start ∧ t = raiseError .desync s) ∨
    (s.rxLen.toNat < s.cap ∧ ¬ (s.rxLen = 0#16 ∧ b ≠ Config.start) ∧ t = afterStore (storedState b s)) := by
  rcases addByteCase b s with h1 | ⟨h1, h2, h3⟩ | ⟨h1, h2⟩
  · rw [execAddByte_overflow h1] at h
    exact .inl ⟨h1, by cases h; rfl⟩
  · rw [execAddByte_desync h1 h2 h3] at h
    exact .inr (.inl ⟨h1, h2, h3, by cases h; rfl⟩)
  · rcases lt_or_gt_of_ne h1 with hlt | hgt
    · rw [execAddByte_store hlt h2] at h
      exact .inr (.inr ⟨hlt, h2, by cases h; rfl⟩)
    · rw [execAddByte_fault hgt h2] at h
      cases h

/-- Everything the tests after the store can leave (R104 to R106). -/
theorem afterStore_cases (u : State) :
    ((u.rxLen.toNat < 3 ∨ u.rxLen.toNat ≠ frameN u + 4) ∧ afterStore u = u.setRx [none]) ∨
    (3 ≤ u.rxLen.toNat ∧ u.rxLen.toNat = frameN u + 4 ∧
      chkVerify (fun i => memRead (activeSpace u) i u) u.rxLen.toNat = true ∧ afterStore u = completeFrameRx u) ∨
    (3 ≤ u.rxLen.toNat ∧ u.rxLen.toNat = frameN u + 4 ∧
      chkVerify (fun i => memRead (activeSpace u) i u) u.rxLen.toNat = false ∧
      afterStore u = raiseError .checksumMismatch u) := by
  unfold afterStore
  split_ifs with h1 h2 h3
  · exact .inl ⟨.inl h1, rfl⟩
  · exact .inl ⟨.inr h2, rfl⟩
  · exact .inr (.inl ⟨by omega, not_not.mp h2, h3, rfl⟩)
  · exact .inr (.inr ⟨by omega, not_not.mp h2, by simpa using h3, rfl⟩)

theorem afterStore_open {u : State} (h : u.rxLen.toNat < 3 ∨ u.rxLen.toNat ≠ frameN u + 4) :
    afterStore u = u.setRx [none] := by
  unfold afterStore
  by_cases h1 : u.rxLen.toNat < 3
  · rw [if_pos h1]
  · rw [if_neg h1, if_pos (h.resolve_left h1)]

theorem afterStore_valid {u : State} (h1 : 3 ≤ u.rxLen.toNat) (h2 : u.rxLen.toNat = frameN u + 4)
    (h3 : chkVerify (fun i => memRead (activeSpace u) i u) u.rxLen.toNat = true) :
    afterStore u = completeFrameRx u := by
  rw [afterStore, if_neg (by omega), if_neg (not_not.mpr h2), if_pos h3]

theorem afterStore_bad {u : State} (h1 : 3 ≤ u.rxLen.toNat) (h2 : u.rxLen.toNat = frameN u + 4)
    (h3 : chkVerify (fun i => memRead (activeSpace u) i u) u.rxLen.toNat = false) :
    afterStore u = raiseError .checksumMismatch u := by
  rw [afterStore, if_neg (by omega), if_neg (not_not.mpr h2), if_neg (by simp [h3])]

/-- What the tests after the store leave alone. -/
theorem afterStore_frame (u : State) :
    (afterStore u).cap = u.cap ∧ (afterStore u).epoch = u.epoch ∧ (∀ sp, (afterStore u).mem sp = u.mem sp) ∧
    (afterStore u).txBuf = u.txBuf ∧ (afterStore u).txLen = u.txLen ∧ (afterStore u).seqLast = u.seqLast ∧
    (afterStore u).inputs = u.inputs ∧ (afterStore u).out = { u.out with rx := (afterStore u).out.rx } := by
  rcases afterStore_cases u with ⟨-, h⟩ | ⟨-, -, -, h⟩ | ⟨-, -, -, h⟩ <;> rw [h] <;>
    refine ⟨rfl, rfl, fun sp => by simp, rfl, rfl, rfl, rfl, rfl⟩

/-- What ADD_BYTE leaves alone (R100, "State written"). -/
theorem execAddByte_frame {b : Byte} {s t : State} (h : execAddByte b s = .next t) :
    t.cap = s.cap ∧ t.epoch = s.epoch ∧ t.txBuf = s.txBuf ∧ t.txLen = s.txLen ∧ t.seqLast = s.seqLast ∧
    t.inputs = s.inputs ∧ t.out = { s.out with rx := t.out.rx } ∧
    (∀ sp, sp ≠ activeSpace s → t.mem sp = s.mem sp) := by
  rcases execAddByte_cases h with ⟨-, rfl⟩ | ⟨-, -, -, rfl⟩ | ⟨-, -, rfl⟩
  · exact ⟨rfl, rfl, rfl, rfl, rfl, rfl, rfl, fun sp _ => by simp⟩
  · exact ⟨rfl, rfl, rfl, rfl, rfl, rfl, rfl, fun sp _ => by simp⟩
  · obtain ⟨h1, h2, h3, h4, h5, h6, h7, h8⟩ := afterStore_frame (storedState b s)
    refine ⟨by simp [h1], by simp [h2], by simp [h4], by simp [h5], by simp [h6], by simp [h7], by
      simpa using h8, fun sp hsp => ?_⟩
    rw [h3, storedState_mem_other _ _ hsp]

/-- ADD_BYTE answers one result. -/
theorem execAddByte_rx {b : Byte} {s t : State} (h : execAddByte b s = .next t) :
    t.out.rx = [none] ∧ t.rxActive = s.rxActive ∨
    ∃ n, t.out.rx = [some { buf := s.rxActive, len := n }] ∧ t.rxActive = otherBuf s.rxActive ∧ t.rxLen = 0#16 := by
  rcases execAddByte_cases h with ⟨-, rfl⟩ | ⟨-, -, -, rfl⟩ | ⟨-, -, rfl⟩
  · exact .inl ⟨rfl, rfl⟩
  · exact .inl ⟨rfl, rfl⟩
  · rcases afterStore_cases (storedState b s) with ⟨-, h⟩ | ⟨-, -, -, h⟩ | ⟨-, -, -, h⟩ <;> rw [h]
    · exact .inl ⟨rfl, by simp⟩
    · exact .inr ⟨(storedState b s).rxLen, by simp, by simp, by simp⟩
    · exact .inl ⟨rfl, by simp⟩

/-- The receiver's part of `s` (and its results) with everything else taken from `u`. -/
def graft (u s : State) : State :=
  { s with txBuf := u.txBuf, txLen := u.txLen, seqLast := u.seqLast, inputs := u.inputs,
           out := { u.out with rx := s.out.rx } }

section graft
variable (u s : State)

@[simp] theorem graft_cap : (graft u s).cap = s.cap := rfl
@[simp] theorem graft_epoch : (graft u s).epoch = s.epoch := rfl
@[simp] theorem graft_rxBuf0 : (graft u s).rxBuf0 = s.rxBuf0 := rfl
@[simp] theorem graft_rxBuf1 : (graft u s).rxBuf1 = s.rxBuf1 := rfl
@[simp] theorem graft_rxLen : (graft u s).rxLen = s.rxLen := rfl
@[simp] theorem graft_rxActive : (graft u s).rxActive = s.rxActive := rfl
@[simp] theorem graft_errCount : (graft u s).errCount = s.errCount := rfl
@[simp] theorem graft_txBuf : (graft u s).txBuf = u.txBuf := rfl
@[simp] theorem graft_txLen : (graft u s).txLen = u.txLen := rfl
@[simp] theorem graft_seqLast : (graft u s).seqLast = u.seqLast := rfl
@[simp] theorem graft_inputs : (graft u s).inputs = u.inputs := rfl
@[simp] theorem graft_out_rx : (graft u s).out.rx = s.out.rx := rfl
@[simp] theorem activeSpace_graft : activeSpace (graft u s) = activeSpace s := rfl
@[simp] theorem graft_mem_rx (k : BufId) : (graft u s).mem (rxSpace k) = s.mem (rxSpace k) := by cases k <;> rfl

@[simp] theorem memRead_graft (k : BufId) (j : Nat) :
    memRead (rxSpace k) j (graft u s) = memRead (rxSpace k) j s := memRead_congr rfl (by rw [graft_mem_rx])

@[simp] theorem frameN_graft : frameN (graft u s) = frameN s := by
  simp only [frameN, activeSpace, graft_rxActive, memRead_graft]

theorem storedState_graft (b : Byte) : storedState b (graft u s) = graft u (storedState b s) := by
  cases hk : s.rxActive <;> simp [storedState, activeSpace, hk, rxSpace, graft, State.setMem, State.mem, State.setRxLen]

end graft

/-- ADD_BYTE reads and writes the receiver's part alone (20_memory.md R51). -/
theorem execAddByte_graft (b : Byte) (u s : State) :
    execAddByte b (graft u s) = andThen (execAddByte b s) (fun t => .next (graft u t)) := by
  have hafter : ∀ v, afterStore (graft u v) = graft u (afterStore v) := by
    intro v
    have hread : (fun i => memRead (activeSpace (graft u v)) i (graft u v)) = fun i => memRead (activeSpace v) i v := by
      simp only [activeSpace, graft_rxActive, memRead_graft]
    rcases afterStore_cases v with ⟨c, e⟩ | ⟨c1, c2, c3, e⟩ | ⟨c1, c2, c3, e⟩
    · rw [e, afterStore_open (u := graft u v) (by simpa using c)]
      rfl
    · rw [e, afterStore_valid (u := graft u v) c1 (by simpa using c2) (by rw [hread]; exact c3)]
      rfl
    · rw [e, afterStore_bad (u := graft u v) c1 (by simpa using c2) (by rw [hread]; exact c3)]
      rfl
  rcases addByteCase b s with h1 | ⟨h1, h2, h3⟩ | ⟨h1, h2⟩
  · rw [execAddByte_overflow h1, execAddByte_overflow (s := graft u s) h1]
    rfl
  · rw [execAddByte_desync h1 h2 h3, execAddByte_desync (s := graft u s) h1 h2 h3]
    rfl
  · rcases lt_or_gt_of_ne h1 with hlt | hgt
    · rw [execAddByte_store hlt h2, execAddByte_store (s := graft u s) hlt h2, storedState_graft, hafter]
      rfl
    · rw [execAddByte_fault hgt h2, execAddByte_fault (s := graft u s) hgt h2]
      rfl

/-- ADD_BYTE does not look at the results sampled before. -/
theorem execAddByte_setRx (b : Byte) (s : State) (r : List RxResult) :
    execAddByte b (s.setRx r) = execAddByte b s := by
  have hstored : storedState b (s.setRx r) = (storedState b s).setRx r := by
    cases hk : s.rxActive <;> simp [storedState, activeSpace, hk, rxSpace, State.setMem, State.mem, State.setRxLen, State.setRx]
  have hafter : ∀ v : State, afterStore (v.setRx r) = afterStore v := by
    intro v
    have hN : frameN (v.setRx r) = frameN v := by simp only [frameN, activeSpace, setRx_rxActive, memRead_setRx]
    have hread : (fun i => memRead (activeSpace (v.setRx r)) i (v.setRx r)) = fun i => memRead (activeSpace v) i v := by
      simp only [activeSpace, setRx_rxActive, memRead_setRx]
    rcases afterStore_cases v with ⟨c, e⟩ | ⟨c1, c2, c3, e⟩ | ⟨c1, c2, c3, e⟩
    · rw [e, afterStore_open (u := v.setRx r) (by rw [hN]; exact c)]
      rfl
    · rw [e, afterStore_valid (u := v.setRx r) c1 (by rw [hN]; exact c2) (by rw [hread]; exact c3)]
      rfl
    · rw [e, afterStore_bad (u := v.setRx r) c1 (by rw [hN]; exact c2) (by rw [hread]; exact c3)]
      rfl
  rcases addByteCase b s with h1 | ⟨h1, h2, h3⟩ | ⟨h1, h2⟩
  · rw [execAddByte_overflow h1, execAddByte_overflow (s := s.setRx r) h1]
    rfl
  · rw [execAddByte_desync h1 h2 h3, execAddByte_desync (s := s.setRx r) h1 h2 h3]
    rfl
  · rcases lt_or_gt_of_ne h1 with hlt | hgt
    · rw [execAddByte_store hlt h2, execAddByte_store (s := s.setRx r) hlt h2, hstored, hafter]
    · rw [execAddByte_fault hgt h2, execAddByte_fault (s := s.setRx r) hgt h2]
      rfl

theorem feed_nil (s : State) : feed [] s = .next (s.setRx []) := rfl

theorem feed_cons_next {b : Byte} {bs : List Byte} {s t : State} :
    feed (b :: bs) s = .next t ↔
      ∃ s1 u, execAddByte b s = .next s1 ∧ feed bs s1 = .next u ∧ t = u.setRx (s1.out.rx ++ u.out.rx) := by
  simp only [feed, andThen_eq_next]
  constructor
  · rintro ⟨s1, h1, u, h2, h3⟩
    cases h3
    exact ⟨s1, u, h1, h2, rfl⟩
  · rintro ⟨s1, u, h1, h2, rfl⟩
    exact ⟨s1, h1, u, h2, rfl⟩

/-- FEED does not look at the results sampled before. -/
theorem feed_setRx (bs : List Byte) (s : State) (r : List RxResult) : feed bs (s.setRx r) = feed bs s := by
  cases bs with
  | nil => rfl
  | cons b bs => simp only [feed, execAddByte_setRx]

/-- FEED reads and writes the receiver's part alone. -/
theorem feed_graft (u : State) (bs : List Byte) : ∀ s : State,
    feed bs (graft u s) = andThen (feed bs s) (fun t => .next (graft u t)) := by
  induction bs with
  | nil => intro s; rfl
  | cons b bs ih =>
    intro s
    simp only [feed, execAddByte_graft, andThen_assoc, andThen_next, ih]
    rfl

end Sys2Proof.Machine
end

