-- ==== Sys2Proof/Laws/Feed.lean ====
section
/-! SUPPORT. Laws/Feed.lean: what a run of bytes does to the receiver, said once: the header from `Idle`, the bytes of
`Collecting`, and the results of two feeds one after the other. -/

namespace Sys2Proof.Machine

/-- A property that every ADD_BYTE keeps and that does not look at the results is kept by FEED. -/
theorem feed_keeps {P : State → State → Prop} (refl : ∀ s r, P s (s.setRx r))
    (trans : ∀ a b c r, P a b → P b c → P a (c.setRx r))
    (one : ∀ b s t, execAddByte b s = .next t → P s t) :
    ∀ bs s t, feed bs s = .next t → P s t := by
  intro bs
  induction bs with
  | nil => intro s t h; cases h; exact refl s []
  | cons b bs ih =>
    intro s t h
    obtain ⟨s1, u, h1, h2, rfl⟩ := feed_cons_next.mp h
    exact trans s s1 u _ (one b s s1 h1) (ih s1 u h2)

/-- What FEED leaves alone: the receiver never touches the builder's state (20_memory.md R51). -/
theorem feed_frame {bs : List Byte} {s t : State} (h : feed bs s = .next t) :
    t.cap = s.cap ∧ t.epoch = s.epoch ∧ t.txBuf = s.txBuf ∧ t.txLen = s.txLen ∧ t.seqLast = s.seqLast ∧
    t.inputs = s.inputs ∧ t.out = { s.out with rx := t.out.rx } := by
  revert bs s t
  intro bs s t h
  refine feed_keeps (P := fun s t => t.cap = s.cap ∧ t.epoch = s.epoch ∧ t.txBuf = s.txBuf ∧ t.txLen = s.txLen ∧
    t.seqLast = s.seqLast ∧ t.inputs = s.inputs ∧ t.out = { s.out with rx := t.out.rx }) ?_ ?_ ?_ bs s t h
  · intro s r; exact ⟨rfl, rfl, rfl, rfl, rfl, rfl, rfl⟩
  · rintro a b c r ⟨h1, h2, h3, h4, h5, h6, h7⟩ ⟨g1, g2, g3, g4, g5, g6, g7⟩
    refine ⟨by simp [g1, h1], by simp [g2, h2], by simp [g3, h3], by simp [g4, h4], by simp [g5, h5],
      by simp [g6, h6], ?_⟩
    rw [setRx_out, g7, h7]
  · intro b s t h
    obtain ⟨h1, h2, h3, h4, h5, h6, h7, -⟩ := execAddByte_frame h
    exact ⟨h1, h2, h3, h4, h5, h6, h7⟩

theorem feed_append_next {as bs : List Byte} : ∀ {s t : State},
    feed (as ++ bs) s = .next t ↔
      ∃ s1 u, feed as s = .next s1 ∧ feed bs s1 = .next u ∧ t = u.setRx (s1.out.rx ++ u.out.rx) := by
  induction as with
  | nil =>
    intro s t
    constructor
    · intro h
      refine ⟨s.setRx [], t, rfl, by rw [feed_setRx]; exact h, by simp⟩
    · rintro ⟨s1, u, h1, h2, rfl⟩
      cases h1
      rw [feed_setRx] at h2
      simpa using h2
  | cons a as ih =>
    intro s t
    rw [List.cons_append, feed_cons_next]
    constructor
    · rintro ⟨s1, u, h1, h2, rfl⟩
      obtain ⟨s2, v, h3, h4, rfl⟩ := ih.mp h2
      exact ⟨s2.setRx (s1.out.rx ++ s2.out.rx), v, feed_cons_next.mpr ⟨s1, s2, h1, h3, rfl⟩, by rw [feed_setRx, h4], by simp⟩
    · rintro ⟨s1, u, h1, h2, rfl⟩
      obtain ⟨s2, v, h3, h4, rfl⟩ := feed_cons_next.mp h1
      rw [feed_setRx] at h2
      exact ⟨s2, u.setRx (v.out.rx ++ u.out.rx), h3, ih.mpr ⟨v, u, h4, h2, rfl⟩, by simp⟩

/-- A byte stored that completes nothing (R103, R104). -/
theorem execAddByte_open {b : Byte} {s : State} (hcap : s.cap ≤ 65535) (hlt : s.rxLen.toNat < s.cap)
    (hacc : ¬ (s.rxLen = 0#16 ∧ b ≠ Config.start)) (hopen : s.rxLen.toNat < 3 ∨ s.rxLen.toNat + 1 ≠ frameN s + 4) :
    execAddByte b s = .next ((storedState b s).setRx [none]) := by
  have hlen := rxLen_storedState b s (by omega)
  rw [execAddByte_store hlt hacc, afterStore_open]
  rw [hlen]
  by_cases h3 : s.rxLen.toNat < 3
  · by_cases h2 : s.rxLen.toNat + 1 < 3
    · exact .inl h2
    · exact .inr (by omega)
  · rw [frameN_storedState b s (by omega)]
    exact .inr (hopen.resolve_left h3)

/-- CHK_VERIFY on the frame with its last byte stored (R142). -/
theorem chkVerify_stored (b : Byte) (s : State) (h1 : 3 ≤ s.rxLen.toNat) :
    chkVerify (fun i => memRead (activeSpace s) i (storedState b s)) (s.rxLen.toNat + 1) = true ↔
      chkSum (fun i => memRead (activeSpace s) i s) 3 (s.rxLen.toNat - 1) + b = 0xFF#8 := by
  rw [chkVerify_iff _ (by omega)]
  have e1 : s.rxLen.toNat + 1 - 1 = s.rxLen.toNat := by omega
  have e2 : s.rxLen.toNat + 1 - 2 = s.rxLen.toNat - 1 := by omega
  rw [e1, e2, memRead_storedState_at]
  rw [chkSum_congr (g := fun i => memRead (activeSpace s) i s)]
  intro i _ hi
  exact memRead_storedState_ne _ _ (.inr (by omega))

/-- The last byte of a frame (R105, R106). -/
theorem execAddByte_last {b : Byte} {s : State} (hcap : s.cap ≤ 65535) (h1 : 3 ≤ s.rxLen.toNat)
    (hlt : s.rxLen.toNat < s.cap) (hN : s.rxLen.toNat + 1 = frameN s + 4) :
    execAddByte b s = .next (if chkSum (fun i => memRead (activeSpace s) i s) 3 (s.rxLen.toNat - 1) + b = 0xFF#8
      then completeFrameRx (storedState b s) else raiseError .checksumMismatch (storedState b s)) := by
  have hne : ¬ (s.rxLen = 0#16 ∧ b ≠ Config.start) := by
    rintro ⟨h0, -⟩; rw [h0] at h1; simp at h1
  have hlen := rxLen_storedState b s (by omega)
  have hiff := chkVerify_stored b s h1
  rw [execAddByte_store hlt hne]
  congr 1
  split_ifs with h
  · apply afterStore_valid (by omega) (by rw [hlen, frameN_storedState b s h1]; exact hN)
    rw [hlen, activeSpace_storedState]; exact hiff.mpr h
  · apply afterStore_bad (by omega) (by rw [hlen, frameN_storedState b s h1]; exact hN)
    rw [hlen, activeSpace_storedState]
    exact Bool.eq_false_iff.mpr (fun h' => h (hiff.mp h'))

theorem afterStore_memRead (u : State) (sp : Space) (i : Nat) : memRead sp i (afterStore u) = memRead sp i u := by
  obtain ⟨h1, h2, h3, -⟩ := afterStore_frame u
  exact memRead_congr h2 (by rw [h3])

/-- The receiver's state as ranges of `rx_len` (R23). -/
theorem rxState_facts (s : State) : 
    (rxState s = .idle ↔ s.rxLen.toNat = 0) ∧ (rxState s = .headerHi ↔ s.rxLen.toNat = 1) ∧
    (rxState s = .headerLo ↔ s.rxLen.toNat = 2) ∧
    (rxState s = .collecting ↔ 3 ≤ s.rxLen.toNat ∧ s.rxLen.toNat < frameN s + 4) := by
  unfold rxState
  split_ifs <;> simp <;> omega

/-- A run of bytes every one of which was stored and none of which completed a frame. -/
structure StoredRun (bs : List Byte) (s t : State) : Prop where
  rxLen : t.rxLen.toNat = s.rxLen.toNat + bs.length
  active : t.rxActive = s.rxActive
  err : t.errCount = s.errCount
  rx : t.out.rx = List.replicate bs.length none
  cap : t.cap = s.cap
  epoch : t.epoch = s.epoch
  bytes : ∀ k < bs.length, some (memRead (activeSpace s) (s.rxLen.toNat + k) t) = bs[k]?
  other : ∀ sp j, (sp ≠ activeSpace s ∨ j < s.rxLen.toNat ∨ s.rxLen.toNat + bs.length ≤ j) →
    memRead sp j t = memRead sp j s

theorem StoredRun.activeSpace_eq {bs : List Byte} {s t : State} (h : StoredRun bs s t) :
    activeSpace t = activeSpace s := by simp only [activeSpace, h.active]

theorem StoredRun.nil (s : State) : StoredRun [] s (s.setRx []) :=
  ⟨by simp, rfl, rfl, rfl, rfl, rfl, by simp, fun sp j _ => by simp⟩

theorem StoredRun.single {b : Byte} {s : State} (hcap : s.cap ≤ 65535) (hlt : s.rxLen.toNat < s.cap) :
    StoredRun [b] s ((storedState b s).setRx [none]) where
  rxLen := by rw [setRx_rxLen, rxLen_storedState b s (by omega)]; rfl
  active := by simp
  err := by simp
  rx := rfl
  cap := by simp
  epoch := by simp
  bytes := by
    intro k hk
    have : k = 0 := by simpa using hk
    subst this
    simp [memRead_storedState_at]
  other := by
    intro sp j h
    rw [memRead_setRx, memRead_storedState_ne]
    simp only [List.length_singleton] at h
    rcases h with h | h | h
    · exact .inl h
    · exact .inr (by omega)
    · exact .inr (by omega)

theorem StoredRun.append {as bs : List Byte} {s t u : State} (h1 : StoredRun as s t) (h2 : StoredRun bs t u) :
    StoredRun (as ++ bs) s (u.setRx (t.out.rx ++ u.out.rx)) where
  rxLen := by rw [setRx_rxLen, h2.rxLen, h1.rxLen, List.length_append]; omega
  active := by rw [setRx_rxActive, h2.active, h1.active]
  err := by rw [setRx_errCount, h2.err, h1.err]
  rx := by rw [setRx_out_rx, h1.rx, h2.rx, List.length_append, List.replicate_add]
  cap := by rw [setRx_cap, h2.cap, h1.cap]
  epoch := by rw [setRx_epoch, h2.epoch, h1.epoch]
  bytes := by
    intro k hk
    rw [memRead_setRx]
    by_cases hka : k < as.length
    · rw [h2.other _ _ (.inr (.inl (by rw [h1.rxLen]; omega))), List.getElem?_append_left hka]
      exact h1.bytes k hka
    · rw [List.getElem?_append_right (by omega), ← h2.bytes (k - as.length) (by rw [List.length_append] at hk; omega),
        h1.activeSpace_eq, h1.rxLen]
      congr 2
      omega
  other := by
    intro sp j h
    rw [List.length_append] at h
    have c1 : sp ≠ activeSpace s ∨ j < s.rxLen.toNat ∨ s.rxLen.toNat + as.length ≤ j := by
      rcases h with h | h | h
      · exact .inl h
      · exact .inr (.inl h)
      · exact .inr (.inr (by omega))
    have c2 : sp ≠ activeSpace t ∨ j < t.rxLen.toNat ∨ t.rxLen.toNat + bs.length ≤ j := by
      rw [h1.activeSpace_eq, h1.rxLen]
      rcases h with h | h | h
      · exact .inl h
      · exact .inr (.inl (by omega))
      · exact .inr (.inr (by omega))
    rw [memRead_setRx, h2.other sp j c2, h1.other sp j c1]

/-- Bytes of `Collecting` short of the frame's end are all stored (R107). -/
theorem feed_collecting (bs : List Byte) : ∀ s : State, s.cap ≤ 65535 → 3 ≤ s.rxLen.toNat →
    s.rxLen.toNat + bs.length ≤ s.cap → s.rxLen.toNat + bs.length < frameN s + 4 →
    ∃ t, feed bs s = .next t ∧ StoredRun bs s t := by
  induction bs with
  | nil => intro s _ _ _ _; exact ⟨_, rfl, StoredRun.nil s⟩
  | cons b bs ih =>
    intro s hcap h3 hfit hshort
    simp only [List.length_cons] at hfit hshort
    have hne : ¬ (s.rxLen = 0#16 ∧ b ≠ Config.start) := by
      rintro ⟨h0, -⟩
      rw [h0] at h3
      simp at h3
    have hone := execAddByte_open (b := b) hcap (by omega) hne (.inr (by omega))
    have hrun := StoredRun.single (b := b) hcap (by omega)
    have hN : frameN ((storedState b s).setRx [none]) = frameN s := by
      rw [← frameN_storedState b s h3]
      simp only [frameN, activeSpace, setRx_rxActive, memRead_setRx]
    have hlen : ((storedState b s).setRx [none]).rxLen.toNat = s.rxLen.toNat + 1 := hrun.rxLen
    obtain ⟨t, ht, hrun'⟩ := ih ((storedState b s).setRx [none]) (by simpa using hcap) (by omega)
      (by simp only [setRx_cap, storedState_cap]; omega) (by omega)
    exact ⟨_, feed_cons_next.mpr ⟨_, t, hone, ht, rfl⟩, hrun.append hrun'⟩

/-- The three header bytes, from `Idle` (R107). -/
theorem feed_header (hi lo : Byte) {s : State} (hcap : Config.legalCap s.cap) (h0 : s.rxLen = 0#16) :
    ∃ t, feed [Config.start, hi, lo] s = .next t ∧ StoredRun [Config.start, hi, lo] s t ∧
      frameN t = lengthField hi lo := by
  have hn : s.rxLen.toNat = 0 := by rw [h0]; rfl
  have e1 := execAddByte_open (b := Config.start) (s := s) hcap.2 (by omega) (by simp) (.inl (by omega))
  have r1 := StoredRun.single (b := Config.start) (s := s) hcap.2 (by omega)
  generalize (storedState Config.start s).setRx [none] = s1 at e1 r1
  have l1 : s1.rxLen.toNat = 1 := by rw [r1.rxLen, hn]; rfl
  have a1 : ∀ b, ¬ (s1.rxLen = 0#16 ∧ b ≠ Config.start) := by
    rintro b ⟨h, -⟩; rw [h] at l1; simp at l1
  have e2 := execAddByte_open (b := hi) (s := s1) (by rw [r1.cap]; exact hcap.2) (by rw [r1.cap]; omega) (a1 hi)
    (.inl (by omega))
  have r2 := StoredRun.single (b := hi) (s := s1) (by rw [r1.cap]; exact hcap.2) (by rw [r1.cap]; omega)
  generalize (storedState hi s1).setRx [none] = s2 at e2 r2
  have l2 : s2.rxLen.toNat = 2 := by rw [r2.rxLen, l1]; rfl
  have c2 : s2.cap = s.cap := by rw [r2.cap, r1.cap]
  have a2 : ∀ b, ¬ (s2.rxLen = 0#16 ∧ b ≠ Config.start) := by
    rintro b ⟨h, -⟩; rw [h] at l2; simp at l2
  have e3 := execAddByte_open (b := lo) (s := s2) (by rw [c2]; exact hcap.2) (by rw [c2]; omega) (a2 lo)
    (.inl (by omega))
  have r3 := StoredRun.single (b := lo) (s := s2) (by rw [c2]; exact hcap.2) (by rw [c2]; omega)
  generalize (storedState lo s2).setRx [none] = s3 at e3 r3
  have f3 : feed [lo] s2 = .next (s3.setRx s3.out.rx) := feed_cons_next.mpr
    ⟨s3, s3.setRx [], e3, rfl, by simp⟩
  rw [setRx_self] at f3
  have f2 := feed_cons_next.mpr ⟨s2, s3, e2, f3, rfl⟩
  have f1 := feed_cons_next.mpr ⟨s1, _, e1, f2, rfl⟩
  have run := r1.append (r2.append r3)
  refine ⟨_, f1, run, ?_⟩
  have h1 := run.bytes 1 (by simp)
  have h2 := run.bytes 2 (by simp)
  rw [hn] at h1 h2
  simp only [frameN, run.activeSpace_eq]
  have e1 : memRead (activeSpace s) 1 _ = hi := Option.some.inj h1
  have e2 : memRead (activeSpace s) 2 _ = lo := Option.some.inj h2
  rw [e1, e2]

end Sys2Proof.Machine
end

