-- ==== Sys2Proof/Laws/Exec.lean ====
section
/-! SUPPORT. Laws/Exec.lean: `exec` by groups of operations of one shape: the builds, the frames, and what each group can
answer. -/

namespace Sys2Proof.Machine

/-- The frame a build lays out, as a function of the id drawn; empty for any other operation. -/
def buildFrame (i : Instr) (id : Byte) : List Byte :=
  match i with
  | .buildCmd payload => cmdFrame id payload
  | .buildData addr payload => dataFrame id addr payload
  | _ => []

theorem exec_buildCmd (p : List Byte) (s : State) :
    exec (.buildCmd p) s = build (p.length + 6) (fun id => cmdFrame id p) s := by
  show execBuildCmd p s = _
  unfold execBuildCmd Config.cmdHdr Config.overhead
  rfl

theorem exec_buildData (a : Addr) (p : List Byte) (s : State) :
    exec (.buildData a p) s = build (p.length + 18) (fun id => dataFrame id a p) s := by
  show execBuildData a p s = _
  unfold execBuildData Config.dataHdr Config.overhead
  rfl

/-- Both builds are one shared operation (R122, R123). -/
theorem exec_build {i : Instr} (h : isBuild i = true) (s : State) :
    exec i s = build (buildLength i) (buildFrame i) s := by
  cases i with
  | buildCmd p => exact exec_buildCmd p s
  | buildData a p => exact exec_buildData a p s
  | _ => exact absurd h Bool.false_ne_true

theorem length_buildFrame {i : Instr} (h : isBuild i = true) (id : Byte) :
    (buildFrame i id).length = buildLength i := by
  cases i with
  | buildCmd p => exact length_cmdFrame id p
  | buildData a p => exact length_dataFrame id a p
  | _ => exact absurd h Bool.false_ne_true

/-- Every frame row is the FEED of its bytes (R91). -/
theorem exec_frame {i : Instr} (h : isFrame i = true) (s : State) : exec i s = feed (wireBytes (frameTail i)) s := by
  cases i <;> first | exact absurd h Bool.false_ne_true | rfl

/-- The shapes of an operation. -/
inductive InstrShape : Instr → Prop where
  | reset : InstrShape .reset
  | addByte (b : Byte) : InstrShape (.addByte b)
  | rxNop : InstrShape .rxNop
  | bldQuiet (i : Instr) (h : ∀ s, exec i s = .next (s.setBld .idle)) (hb : isBuild i = false) (hf : isFrame i = false)
      (ha : ∀ b, i ≠ .addByte b) (hr : i ≠ .reset) : InstrShape i
  | build (i : Instr) (h : isBuild i = true) : InstrShape i
  | rxRead (k : BufId) (j : Half) : InstrShape (.rxRead k j)
  | txRead (j : Half) : InstrShape (.txRead j)
  | txLen : InstrShape .txLen
  | errorCount : InstrShape .errorCount
  | frame (i : Instr) (h : isFrame i = true) : InstrShape i

theorem frameGeneric_isFrame (body : List Byte) (ck : Byte) : isFrame (.frameGeneric body ck) = true := by
  simp [isFrame, frameTail, genericTail]

theorem instrShape (i : Instr) : InstrShape i := by
  cases i with
  | reset => exact .reset
  | addByte b => exact .addByte b
  | rxNop => exact .rxNop
  | bldNop => exact .bldQuiet _ (fun _ => rfl) rfl rfl (fun _ h => by cases h) (fun h => by cases h)
  | buildCmd p => exact .build _ rfl
  | buildData a p => exact .build _ rfl
  | bldReserved => exact .bldQuiet _ (fun _ => rfl) rfl rfl (fun _ h => by cases h) (fun h => by cases h)
  | rxRead k j => exact .rxRead k j
  | txRead j => exact .txRead j
  | txLen => exact .txLen
  | errorCount => exact .errorCount
  | frameGeneric body ck => exact .frame _ (frameGeneric_isFrame body ck)
  | frameAtCommand id rest => exact .frame _ rfl
  | frameTransmitRequest id a rest => exact .frame _ rfl
  | frameAtResponse rest => exact .frame _ rfl
  | frameModemStatus rest => exact .frame _ rfl
  | frameTransmitStatus rest => exact .frame _ rfl
  | frameReceivePacket rest => exact .frame _ rfl

end Sys2Proof.Machine
end

