-- ==== Sys2Proof/Laws/Step.lean ====
section
/-! SUPPORT. Laws/Step.lean: what one edge does, said once: the state the read ports leave, then the request ports. -/

namespace Sys2Proof.Machine

/-- The state after the read ports of an edge are sampled and before its requests (44_readout.md R164). -/
def sampledState (p : Pins) (s : State) : State :=
  { s with out :=
      { rx := [], bld := .idle,
        rxrdData := some (portRead (rxSpace (bufOfBit (p.rxrd.extractLsb' 16 1))) (p.rxrd.extractLsb' 0 16) s),
        txrdData := some (portRead .txbuf p.txrd s), txLenO := some s.txLen, errCountO := some s.errCount } }

/-- A read port shows nothing of the results sampled before. -/
theorem portRead_out (sp : Space) (i : Half) (s : State) (o : Outputs) :
    portRead sp i { s with out := o } = portRead sp i s := by cases sp <;> rfl

theorem sampleReads_eq (p : Pins) (s : State) : sampleReads p s.clearOut = .next (sampledState p s) := by
  have h1 := portRead_out (rxSpace (bufOfBit (p.rxrd.extractLsb' 16 1))) (p.rxrd.extractLsb' 0 16) s Outputs.quiet
  have h2 := portRead_out .txbuf p.txrd s
    ⟨[], .idle, some (portRead (rxSpace (bufOfBit (p.rxrd.extractLsb' 16 1))) (p.rxrd.extractLsb' 0 16) s.clearOut),
      none, none, none⟩
  unfold sampledState
  rw [← h1, ← h2]
  rfl

/-- One edge: the read ports, then the requests. -/
theorem edge_eq (p : Pins) (s : State) : edge p s = requestOps p (sampledState p s) := by
  rw [edge, sampleReads_eq, andThen_next]

theorem runBytes_ok {bytes : List Byte} {i : Instr} (h : decode (.wire bytes) = .ok i) (s : State) :
    runBytes bytes s = exec i s := by
  rw [runBytes, h]

theorem runBytes_error {bytes : List Byte} {r : Reject} (h : decode (.wire bytes) = .error r) (s : State) :
    runBytes bytes s = feed bytes s := by
  rw [runBytes, h]

/-- An edge with `rst` = 1 (70_reset_and_hazards.md R200). -/
theorem edge_rst {p : Pins} (h : p.rst = true) (s : State) : edge p s = execReset (sampledState p s) := by
  rw [edge_eq, requestOps, if_pos h]
  rfl

/-- An edge with `rst` = 0: the receiver's operation, then the builder's (30_encoding.md R85). -/
theorem edge_request {p : Pins} (h : p.rst = false) (s : State) :
    edge p s = andThen (exec (decodeRxw p.rxw) (sampledState p s))
      (exec (decodeBld p.bldOp p.bldAddr p.bldPlen p.bldPayload)) := by
  rw [edge_eq, requestOps, h]
  rfl

/-- An edge that asks nothing of the receiver and the builder only samples the read ports (R90). -/
theorem edge_quiet {p : Pins} (h : p.rst = false) (hr : p.rxw = 0#9) (hb : p.bldOp = 0b00#2) (s : State) :
    edge p s = .next (((sampledState p s).setRx [none]).setBld .idle) := by
  rw [edge_request h, hr, hb]
  rfl

theorem step_nil {s : State} (h : s.inputs = []) : step s = edge idlePins s := by rw [step, runNext, h]

theorem step_edge {s : State} {p : Pins} {rest : List Input} (h : s.inputs = .edge p :: rest) :
    step s = edge p (s.setInputs rest) := by
  rw [step, runNext, h]
  rfl

theorem step_feed {s : State} {bytes : List Byte} {rest : List Input} (h : s.inputs = .feed bytes :: rest) :
    step s = runBytes bytes (s.setInputs rest).clearOut := by
  rw [step, runNext, h]
  rfl

end Sys2Proof.Machine
end

