-- ==== Sys2Proof/Laws/Contract.lean ====
section
/-! SUPPORT. Laws/Contract.lean: what the contract of 70_reset_and_hazards.md R204 says of ADD_BYTE and FEED, said once: a
buffer no byte is stored into is left alone. -/

namespace Sys2Proof.Machine

theorem storesInto_eq_true {k : BufId} {b : Byte} {s : State} :
    storesInto k b s = true ↔ s.rxActive = k ∧ s.rxLen.toNat ≠ s.cap ∧ ¬ (s.rxLen = 0#16 ∧ b ≠ Config.start) := by
  simp only [storesInto, Bool.and_eq_true, decide_eq_true_eq, Bool.not_eq_true', decide_eq_false_iff_not, and_assoc]

/-- The buffer that is not active is stored into by no byte (20_memory.md R64). -/
theorem storesInto_inactive {k : BufId} {s : State} (h : s.rxActive = otherBuf k) (b : Byte) : storesInto k b s = false := by
  rw [Bool.eq_false_iff]
  exact fun hs => otherBuf_ne k (h.symm.trans (storesInto_eq_true.mp hs).1)

/-- A byte that is not stored into a buffer leaves it alone. -/
theorem execAddByte_not_stored {k : BufId} {b : Byte} {s t : State} (hs : storesInto k b s = false)
    (h : execAddByte b s = .next t) : t.mem (rxSpace k) = s.mem (rxSpace k) := by
  by_cases hk : s.rxActive = k
  · rcases execAddByte_cases h with ⟨-, rfl⟩ | ⟨-, -, -, rfl⟩ | ⟨hlt, hacc, -⟩
    · cases k <;> rfl
    · cases k <;> rfl
    · exact absurd (storesInto_eq_true.mpr ⟨hk, by omega, hacc⟩) (by simp [hs])
  · refine (execAddByte_frame h).2.2.2.2.2.2.2 (rxSpace k) (fun e => hk ?_)
    have hinj : ∀ a c : BufId, rxSpace a = rxSpace c → c = a := by
      intro a c
      cases a <;> cases c <;> simp [rxSpace]
    exact hinj k s.rxActive e

theorem feedStoresInto_cons {k : BufId} {b : Byte} {bs : List Byte} {s t : State} (h : execAddByte b s = .next t) :
    feedStoresInto k (b :: bs) s = (storesInto k b s || feedStoresInto k bs t) := by
  simp only [feedStoresInto, h]

/-- Bytes none of which is stored into a buffer leave it alone. -/
theorem feed_not_stored {k : BufId} : ∀ {bs : List Byte} {s t : State}, feedStoresInto k bs s = false →
    feed bs s = .next t → t.mem (rxSpace k) = s.mem (rxSpace k) := by
  intro bs
  induction bs with
  | nil => intro s t _ h; cases h; cases k <;> rfl
  | cons b bs ih =>
    intro s t hs h
    obtain ⟨s1, u, h1, h2, rfl⟩ := feed_cons_next.mp h
    rw [feedStoresInto_cons h1, Bool.or_eq_false_iff] at hs
    have e := (ih hs.2 h2).trans (execAddByte_not_stored hs.1 h1)
    cases k <;> exact e

/-- The contract over one more entry: it does not end the life of the frame, and the rest keeps it. -/
theorem handleReadable_cons {h : Handle} {x : Input} {xs : List Input} {s t : State} (hx : runInput x s = .next t) :
    handleReadable h (x :: xs) s = (!endsReading h.buf x s && handleReadable h xs t) := by
  simp only [handleReadable, hx]

end Sys2Proof.Machine
end

