-- ==== Sys2Proof/Laws/Invariant.lean ====
section
/-! SUPPORT. Laws/Invariant.lean: which parts of the state the invariant of Safety.lean looks at. -/

namespace Sys2Proof.Machine

/-- The invariant looks at the block's state alone, not at the trace or the results. -/
theorem BlockInv.congr {s t : State} (h : sameBlock s t) (hI : BlockInv s) : BlockInv t := by
  obtain ⟨⟩ := s; obtain ⟨⟩ := t
  obtain ⟨h1, h2, h3, h4, h5, h6, h7, h8, h9, h10⟩ := h
  simp only at h1 h2 h3 h4 h5 h6 h7 h8 h9 h10
  subst h1 h2 h3 h4 h5 h6 h7 h8 h9 h10
  refine ⟨hI.1, hI.2, hI.3, hI.4, hI.5, hI.6, hI.7, ?_, hI.9⟩
  rcases hI.8 with h | h
  · exact .inl h
  · exact .inr ⟨h.1, h.2, h.3, h.4, h.5, h.6, h.7, h.8⟩

/-- What the invariant says of the frame last built depends on the builder's part alone. -/
theorem TxFrameOk.congr {s t : State} (hc : t.cap = s.cap) (he : t.epoch = s.epoch) (hb : t.txBuf = s.txBuf)
    (hl : t.txLen = s.txLen) (hs : t.seqLast = s.seqLast) (h : TxFrameOk s) : TxFrameOk t := by
  have hm : t.mem .txbuf = s.mem .txbuf := hb
  have hr : ∀ i, memRead .txbuf i t = memRead .txbuf i s := fun i => memRead_congr he (by rw [hm])
  constructor
  · rw [hl]; exact h.sizeLow
  · rw [hl, hc]; exact h.sizeHigh
  · rw [hl]; intro i hi; rw [hm]; exact h.written i hi
  · rw [hr]; exact h.start
  · rw [hr, hr, hl]; exact h.length
  · rw [hr]; exact h.type
  · rw [hr, hs]; exact h.id
  · simp only [hr, hl]; exact h.verifies

/-- The invariant with the receiver in `Idle`: only the memories have to be looked at. -/
theorem BlockInv.idle {s t : State} (hI : BlockInv s) (hc : t.cap = s.cap) (he : t.epoch = s.epoch)
    (hm : ∀ sp, Memory.wf (t.mem sp) ∧ Memory.below (t.mem sp) s.cap) (h0 : t.rxLen = 0#16) (hb : t.txBuf = s.txBuf)
    (hl : t.txLen = s.txLen) (hs : t.seqLast = s.seqLast) : BlockInv t where
  capLegal := by rw [hc]; exact hI.capLegal
  canonical sp := (hm sp).1
  inSpace sp := by rw [hc]; exact (hm sp).2
  rxLenLe := by rw [h0]; simp
  rxWritten := by rw [h0]; intro i hi; simp at hi
  rxStart := by rw [h0]; simp
  rxInProgress := by rw [h0]; simp
  txFrame := by
    rcases hI.txFrame with h | h
    · exact .inl (by rw [hl]; exact h)
    · exact .inr (h.congr hc he hb hl hs)
  idIffBuilt := by rw [hs, hl]; exact hI.idIffBuilt

/-- A written byte reads the same under any free values (10_state.md R35). -/
theorem memRead_epoch {s : State} {sp : Space} {i : Nat} (h : (Memory.lookup (s.mem sp) i).isSome) (e : Nat) :
    memRead sp i { s with epoch := e } = memRead sp i s := by
  have hm : State.mem { s with epoch := e } sp = s.mem sp := by cases sp <;> rfl
  obtain ⟨v, hv⟩ := Option.isSome_iff_exists.mp h
  simp only [memRead, hm, hv, Option.getD_some]

end Sys2Proof.Machine
end

