-- ==== Sys2Proof/Laws/Wire.lean ====
section
/-! SUPPORT. Laws/Wire.lean: the bytes of frame rows and built frames: their lengths, their layout, and what feeding the
beginning of one does. -/

namespace Sys2Proof.Machine

/-- Every frame row is encoded as its bytes on the wire. -/
theorem encode_frame {i : Instr} (hf : isFrame i = true) : encode i = .wire (wireBytes (frameTail i)) := by
  cases i <;> first | exact absurd hf Bool.false_ne_true | rfl

theorem length_frameTail {i : Instr} (hw : i.wellFormed = true) (hf : isFrame i = true) :
    1 ≤ (frameTail i).length ∧ (frameTail i).length ≤ 65536 := by
  cases i <;> first
    | exact absurd hf Bool.false_ne_true
    | (simp only [Instr.wellFormed, maxLength, Bool.and_eq_true, decide_eq_true_eq] at hw
       simp only [frameTail, genericTail, atCommandTail, transmitRequestTail, plainTail, addrBytes, List.length_append,
         List.length_cons, List.length_nil]
       omega)

/-- A frame row's operands that no more specific row describes decode to the generic row. -/
theorem decodeTail_generic {t : Byte} {r : List Byte} (h : tailIsTyped (t :: r) = false) :
    decodeTail (t :: r) = genericOfTail (t :: r) := by
  simp only [tailIsTyped, Bool.or_eq_false_iff, beq_eq_false_iff_ne, Bool.and_eq_false_iff, Bool.not_eq_false',
    List.isEmpty_iff] at h
  obtain ⟨⟨⟨⟨⟨h1, h2⟩, h3⟩, h4⟩, h5⟩, h6⟩ := h
  unfold decodeTail
  dsimp only
  rw [if_neg h1, if_neg h2, if_neg h3, if_neg h4]
  split_ifs with h7 h8
  · rw [h5.resolve_left (fun h => h h7)]
  · have h6 := h6.resolve_left (fun h => h h8)
    split
    · split_ifs with hc
      · obtain ⟨rfl, rfl, rfl, rfl⟩ := hc
        exact absurd (by simp) h6
      · rfl
    · rfl
  · rfl

theorem genericOfTail_append (body : List Byte) (ck : Byte) : genericOfTail (body ++ [ck]) = .frameGeneric body ck := by
  simp [genericOfTail, List.getLastD_eq_getLast?]

/-- The beginning of a frame that announces more bytes than `pre`, fed in `Idle`: all stored (40_receiver.md R107). -/
theorem feed_frame_open (tail pre : List Byte) {s : State} (hc : Config.legalCap s.cap) (h0 : s.rxLen = 0#16)
    (h1 : 1 ≤ tail.length) (h2 : tail.length ≤ 65536) (hfit : pre.length + 3 ≤ s.cap)
    (hshort : pre.length < tail.length) :
    ∃ t, feed (Config.start :: hiByte (tail.length - 1) :: loByte (tail.length - 1) :: pre) s = .next t ∧
      StoredRun (Config.start :: hiByte (tail.length - 1) :: loByte (tail.length - 1) :: pre) s t ∧
      frameN t = tail.length - 1 := by
  have hn : s.rxLen.toNat = 0 := by rw [h0]; rfl
  obtain ⟨t1, f1, r1, n1⟩ := feed_header (hiByte (tail.length - 1)) (loByte (tail.length - 1)) hc h0
  rw [lengthField_split (by omega)] at n1
  have l1 : t1.rxLen.toNat = 3 := by rw [r1.rxLen, hn]; rfl
  obtain ⟨t2, f2, r2⟩ := feed_collecting pre t1 (by rw [r1.cap]; exact hc.2) (by omega) (by rw [r1.cap]; omega)
    (by omega)
  refine ⟨_, feed_append_next (as := [_, _, _]).mpr ⟨t1, t2, f1, f2, rfl⟩, r1.append r2, ?_⟩
  have hact : activeSpace t2 = activeSpace t1 := r2.activeSpace_eq
  simp only [frameN, activeSpace, setRx_rxActive, memRead_setRx] at *
  rw [hact, r2.other _ 1 (.inr (.inl (by omega))), r2.other _ 2 (.inr (.inl (by omega)))]
  exact n1

theorem feed_single {b : Byte} {s t : State} (h : execAddByte b s = .next t) : feed [b] s = .next t := by
  have : feed [b] s = .next (t.setRx t.out.rx) := feed_cons_next.mpr ⟨t, t.setRx [], h, rfl, by simp⟩
  rw [this, setRx_self]

/-- The sum of a frame's bytes with its checksum (30_encoding.md R78). -/
theorem tailVerifies_append (body : List Byte) (ck : Byte) :
    tailVerifies (body ++ [ck]) = true ↔ sumBytes body + ck = 0xFF#8 := by
  have : tailVerifies (body ++ [ck]) = (sumBytes (body ++ [ck]) == Config.ckTarget) := rfl
  rw [this, beq_iff_eq, sumBytes_append]
  simp [Config.ckTarget]

/-- What every built frame looks like (30_encoding.md R75, R76). -/
structure FrameShape (f : List Byte) (id : Byte) : Prop where
  start : f[0]? = some Config.start
  length : ∃ hi lo, f[1]? = some hi ∧ f[2]? = some lo ∧ (f.length ≤ 65535 → lengthField hi lo + 4 = f.length)
  type : f[3]? = some Config.tAtCommand ∨ f[3]? = some Config.tTxRequest
  ident : f[4]? = some id
  sealed : ∃ a b c body, f = a :: b :: c :: (body ++ [0xFF#8 - sumBytes body])

theorem frameShape_build {i : Instr} (hb : isBuild i = true) (id : Byte) : FrameShape (buildFrame i id) id := by
  cases i with
  | buildCmd p =>
    simp only [buildFrame]
    rw [cmdFrame_eq]
    refine ⟨rfl, ⟨_, _, rfl, rfl, fun h => ?_⟩, .inl rfl, rfl, ⟨_, _, _, _, rfl⟩⟩
    simp only [List.length_cons, List.length_append, List.length_nil] at h ⊢
    rw [lengthField_split (by omega)]
  | buildData a p =>
    simp only [buildFrame]
    rw [dataFrame_eq]
    refine ⟨rfl, ⟨_, _, rfl, rfl, fun h => ?_⟩, .inr rfl, rfl, ⟨_, _, _, _, rfl⟩⟩
    simp only [List.length_cons, List.length_append, List.length_nil, length_dataBody] at h ⊢
    rw [lengthField_split (by omega)]
  | _ => exact absurd hb Bool.false_ne_true

/-- A sealed frame verifies, however its bytes are read (42_checksum.md R143). -/
theorem chkVerify_of_sealed {f : List Byte} {g : Nat → Byte} (hg : ∀ k < f.length, some (g k) = f[k]?)
    (hf : ∃ a b c body, f = a :: b :: c :: (body ++ [0xFF#8 - sumBytes body])) : chkVerify g f.length = true := by
  obtain ⟨a, b, c, body, rfl⟩ := hf
  have hl : (a :: b :: c :: (body ++ [0xFF#8 - sumBytes body])).length = body.length + 4 := by simp
  rw [hl, chkVerify, beq_iff_eq, chkSum_eq_sumBytes (body ++ [0xFF#8 - sumBytes body])]
  · rw [sumBytes_append, BitVec.add_comm]
    simp [Config.ckTarget]
  · simp; omega
  · intro k hk
    simp only [List.length_append, List.length_cons, List.length_nil] at hk
    have e : 3 + k = k + 1 + 1 + 1 := by omega
    rw [hg (3 + k) (by rw [hl]; omega), e, List.getElem?_cons_succ, List.getElem?_cons_succ, List.getElem?_cons_succ]

theorem buildLength_ge {i : Instr} (hb : isBuild i = true) : 6 ≤ buildLength i := by
  cases i with
  | buildCmd p => simp [buildLength]
  | buildData a p => simp [buildLength]
  | _ => exact absurd hb Bool.false_ne_true

end Sys2Proof.Machine
end

