-- ==== Sys2Proof/Laws/PerInstr.lean ====
section
/-! SUPPORT. Laws/PerInstr.lean: what is said of every operation as syntax, one lemma a constructor. -/

namespace Sys2Proof.Laws.EncodingLength

open Sys2Proof.Machine

/-- A well-formed operation is encoded either at a port or as a frame whose length field counts its bytes: "Total
length = payload length field + 4" (30_encoding.md R71). -/
def Statement (i : Instr) : Prop :=
  i.wellFormed = true →
    if isFrame i then ∃ hi lo, encode i = .wire (0x7E#8 :: hi :: lo :: frameTail i) ∧
      (frameTail i).length + 3 = hi.toNat * 256 + lo.toNat + 4
    else ∀ bytes, encode i ≠ .wire bytes

theorem of_frame {i : Instr} (hf : isFrame i = true) : Statement i := by
  intro hw
  rw [if_pos hf]
  obtain ⟨h1, h2⟩ := length_frameTail hw hf
  have h3 := lengthField_split (n := (frameTail i).length - 1) (by omega)
  unfold lengthField at h3
  exact ⟨_, _, encode_frame hf, by omega⟩

theorem reset : Statement .reset := fun _ _ h => nomatch h
theorem addByte (b : Byte) : Statement (.addByte b) := fun _ _ h => nomatch h
theorem rxNop : Statement .rxNop := fun _ _ h => nomatch h
theorem bldNop : Statement .bldNop := fun _ _ h => nomatch h
theorem buildCmd (payload : List Byte) : Statement (.buildCmd payload) := fun _ _ h => nomatch h
theorem buildData (addr : Addr) (payload : List Byte) : Statement (.buildData addr payload) := fun _ _ h => nomatch h
theorem bldReserved : Statement .bldReserved := fun _ _ h => nomatch h
theorem rxRead (buf : BufId) (i : Half) : Statement (.rxRead buf i) := fun _ _ h => nomatch h
theorem txRead (i : Half) : Statement (.txRead i) := fun _ _ h => nomatch h
theorem txLen : Statement .txLen := fun _ _ h => nomatch h
theorem errorCount : Statement .errorCount := fun _ _ h => nomatch h
theorem frameGeneric (body : List Byte) (ck : Byte) : Statement (.frameGeneric body ck) :=
  of_frame (frameGeneric_isFrame body ck)
theorem frameAtCommand (id : Byte) (rest : List Byte) : Statement (.frameAtCommand id rest) := of_frame rfl
theorem frameTransmitRequest (id : Byte) (addr : Addr) (rest : List Byte) :
    Statement (.frameTransmitRequest id addr rest) := of_frame rfl
theorem frameAtResponse (rest : List Byte) : Statement (.frameAtResponse rest) := of_frame rfl
theorem frameModemStatus (rest : List Byte) : Statement (.frameModemStatus rest) := of_frame rfl
theorem frameTransmitStatus (rest : List Byte) : Statement (.frameTransmitStatus rest) := of_frame rfl
theorem frameReceivePacket (rest : List Byte) : Statement (.frameReceivePacket rest) := of_frame rfl

end Sys2Proof.Laws.EncodingLength
end

