-- ==== Sys2Proof/Tests/Slice0.lean ====
section
/-! SUPPORT. Tests/Slice0.lean: the author's tests. Expected values are those of spec/95_test_vectors.md (their ids stand
in the names or docstrings) or words written out from the tables of spec/30_encoding.md. Then one witness for the
hypotheses of every statement that has any. -/

namespace Sys2Proof.Tests

open Sys2Proof.Machine

/-! ### Ill-formed terms are refused, and the largest operands are not -/

theorem test_wf_buildCmd : (Instr.buildCmd (List.replicate 65536 0#8)).wellFormed = false := by
  simp only [Instr.wellFormed, List.length_replicate]; decide
theorem test_wf_buildData : (Instr.buildData 0#64 (List.replicate 65536 0#8)).wellFormed = false := by
  simp only [Instr.wellFormed, List.length_replicate]; decide
theorem test_wf_generic_long : (Instr.frameGeneric (List.replicate 65536 0#8) 0#8).wellFormed = false := by
  simp only [Instr.wellFormed, List.length_replicate]; decide
/-- A generic frame with a listed type is the typed row's. -/
theorem test_wf_generic_typed : (Instr.frameGeneric [0x8A#8, 0x06#8] 0x6F#8).wellFormed = false := by decide
theorem test_wf_generic_command : (Instr.frameGeneric [0x08#8, 0x52#8] 0x0F#8).wellFormed = false := by decide
theorem test_wf_generic_request : (Instr.frameGeneric [0x10#8, 1#8, 0#8, 0#8, 0#8, 0#8, 0#8, 0#8, 0xFF#8, 0xFF#8, 0xFF#8,
    0xFE#8, 0#8, 0#8] 0xF2#8).wellFormed = false := by decide
theorem test_wf_atCommand : (Instr.frameAtCommand 0#8 (List.replicate 65535 0#8)).wellFormed = false := by
  simp only [Instr.wellFormed, List.length_replicate]; decide
theorem test_wf_transmitRequest : (Instr.frameTransmitRequest 0#8 0#64 (List.replicate 65523 0#8)).wellFormed = false := by
  simp only [Instr.wellFormed, List.length_replicate]; decide
theorem test_wf_atResponse : (Instr.frameAtResponse (List.replicate 65536 0#8)).wellFormed = false := by
  simp only [Instr.wellFormed, List.length_replicate]; decide
theorem test_wf_modemStatus : (Instr.frameModemStatus (List.replicate 65536 0#8)).wellFormed = false := by
  simp only [Instr.wellFormed, List.length_replicate]; decide
theorem test_wf_transmitStatus : (Instr.frameTransmitStatus (List.replicate 65536 0#8)).wellFormed = false := by
  simp only [Instr.wellFormed, List.length_replicate]; decide
theorem test_wf_receivePacket : (Instr.frameReceivePacket (List.replicate 65536 0#8)).wellFormed = false := by
  simp only [Instr.wellFormed, List.length_replicate]; decide
theorem test_wf_longest_payload : (Instr.buildCmd (List.replicate 65535 0#8)).wellFormed = true := by
  simp only [Instr.wellFormed, List.length_replicate]; decide
/-- A request frame whose reserved bytes are not FF FE 00 00 is a generic one. -/
theorem test_wf_generic_other_reserved : (Instr.frameGeneric [0x10#8, 1#8, 0#8, 0#8, 0#8, 0#8, 0#8, 0#8, 0xFF#8, 0xFF#8,
    0xFF#8, 0xFD#8, 0#8, 0#8] 0#8).wellFormed = true := by decide

/-! ### Words written out bit by bit decode to their operations -/

/-- `rst` = 1 (R80). -/
theorem test_decode_reset : decode (.rst 0b1#1) = .ok .reset := by decide
theorem test_decode_no_reset : decode (.rst 0b0#1) = .error .noResetRequested := by decide
/-- `RX 55` is RXW = 0x155 (R90). -/
theorem test_decode_addByte : decode (.rxw 0b101010101#9) = .ok (.addByte 0b01010101#8) := by decide
/-- `rx_valid` = 0; `rx_data` is ignored (R81). -/
theorem test_decode_rxNop : decode (.rxw 0b001010101#9) = .ok .rxNop := by decide
theorem test_decode_bldNop : decode (.bld 0b00#2 1#64 2#16 3) = .ok .bldNop := by decide
/-- Program P1's bus order: `bld_payload[15:0]` = 0x6948 is 48 69; a third byte lies beyond P (R82). -/
theorem test_decode_buildCmd : decode (.bld 0b01#2 9#64 2#16 0xAA6948) = .ok (.buildCmd [0x48#8, 0x69#8]) := by decide
theorem test_decode_buildData : decode (.bld 0b10#2 0x0013A20040A1B2C3#64 3#16 0x030201) =
    .ok (.buildData 0x0013A20040A1B2C3#64 [1#8, 2#8, 3#8]) := by decide
theorem test_decode_bldReserved : decode (.bld 0b11#2 1#64 2#16 3) = .ok .bldReserved := by decide
/-- kiiiiiiiiiiiiiiii: buffer 1, index 7 (R84). -/
theorem test_decode_rxRead : decode (.rxrd 0b10000000000000111#17) = .ok (.rxRead .buf1 7#16) := by decide
theorem test_decode_txRead : decode (.txrd 0b0000000000000100#16) = .ok (.txRead 4#16) := by decide
theorem test_decode_txLen : decode .txLenPort = .ok .txLen := by decide
theorem test_decode_errorCount : decode .errCountPort = .ok .errorCount := by decide
/-- V-RX-8: type 0x33 is not listed. -/
theorem test_decode_generic : decode (.wire [0b01111110#8, 0#8, 2#8, 0x33#8, 0x00#8, 0xCC#8]) =
    .ok (.frameGeneric [0x33#8, 0x00#8] 0xCC#8) := by decide
/-- V-RX-2: N = 0. -/
theorem test_decode_generic_empty : decode (.wire [0x7E#8, 0#8, 0#8, 0xFF#8]) = .ok (.frameGeneric [] 0xFF#8) := by decide
/-- The example of R92. -/
theorem test_decode_atCommand : decode (.wire [0b01111110#8, 0b00000000#8, 0b00000100#8, 0b00001000#8, 0b01010010#8,
    0x4E#8, 0x48#8, 0x0F#8]) = .ok (.frameAtCommand 0x52#8 [0x4E#8, 0x48#8, 0x0F#8]) := by decide
/-- V-BD-3: a big-endian address. -/
theorem test_decode_transmitRequest : decode (.wire [0x7E#8, 0x00#8, 0x11#8, 0x10#8, 0x01#8, 0x00#8, 0x13#8, 0xA2#8,
    0x00#8, 0x40#8, 0xA1#8, 0xB2#8, 0xC3#8, 0xFF#8, 0xFE#8, 0x00#8, 0x00#8, 0x01#8, 0x02#8, 0x03#8, 0xE0#8]) =
    .ok (.frameTransmitRequest 1#8 0x0013A20040A1B2C3#64 [1#8, 2#8, 3#8, 0xE0#8]) := by decide
theorem test_decode_atResponse : decode (.wire [0x7E#8, 0#8, 2#8, 0b10001000#8, 1#8, 2#8]) =
    .ok (.frameAtResponse [1#8, 2#8]) := by decide
/-- V-RX-7. -/
theorem test_decode_modemStatus : decode (.wire [0x7E#8, 0#8, 2#8, 0b10001010#8, 0x06#8, 0x6F#8]) =
    .ok (.frameModemStatus [0x06#8, 0x6F#8]) := by decide
theorem test_decode_transmitStatus : decode (.wire [0x7E#8, 0#8, 1#8, 0b10001011#8, 0x74#8]) =
    .ok (.frameTransmitStatus [0x74#8]) := by decide
theorem test_decode_receivePacket : decode (.wire [0x7E#8, 0#8, 1#8, 0b10010000#8, 0x6F#8]) =
    .ok (.frameReceivePacket [0x6F#8]) := by decide
theorem test_decode_no_start : decode (.wire [0x7D#8, 0#8, 0#8, 0xFF#8]) = .error .noStartDelimiter := by decide
theorem test_decode_short : decode (.wire [0x7E#8, 0#8, 1#8, 0xFF#8]) = .error .frameTooShort := by decide
theorem test_decode_long : decode (.wire [0x7E#8, 0#8, 0#8, 0xFF#8, 0#8]) = .error .bytesAfterFrame := by decide
/-- The opcode table's words: ADD_BYTE's match 0x100, BUILD_DATA's 0x2, and the prefix 7E 00 00 8A completed. -/
theorem test_table_addByte : decodeTableWord 16 0x100 = some (.addByte 0#8) := by decide
theorem test_table_buildData : decodeTableWord 8 0x2 = some (.buildData 0#64 []) := by decide
theorem test_table_modemStatus : decodeTableWord 32 0x7E00028A = some (.frameModemStatus [0#8, 0#8]) := by decide

/-! ### One step each, against the vectors of 95_test_vectors.md -/

/-- A view of the next state, if there is one. -/
def look {α : Type} (o : Host.Outcome State Fault Refusal) (f : State → α) : Option α :=
  match o with
  | .next s => some (f s)
  | .fault _ => none
  | .refused _ => none

/-- A state with these bytes of a frame in progress in buffer 0, for CAP = 18. -/
def rxAt (bs : List Byte) : State :=
  { State.reset with cap := 18, rxBuf0 := Memory.insertAll [] 0 bs, rxLen := BitVec.ofNat 16 bs.length }

/-- The AT-command frame of R92 but for its last byte. -/
def almost : List Byte := [0x7E#8, 0x00#8, 0x04#8, 0x08#8, 0x52#8, 0x4E#8, 0x48#8]

/-- V-RX-1, last byte. -/
theorem test_addByte_completes : look (exec (.addByte 0x0F#8) (rxAt almost)) (fun t => (t.rxLen, t.rxActive, t.errCount,
    t.out.rx)) = some (0#16, .buf1, 0#8, [some ⟨.buf0, 8#16⟩]) := by decide
/-- V-RX-4, last byte. -/
theorem test_addByte_mismatch : look (exec (.addByte 0x0E#8) (rxAt almost)) (fun t => (t.rxLen, t.rxActive, t.errCount,
    Memory.lookup t.rxBuf0 7)) = some (0#16, .buf0, 1#8, some 0x0E#8) := by decide
/-- V-RX-10: a second 7E is N[15:8]. -/
theorem test_addByte_start_is_data : look (exec (.addByte 0x7E#8) (rxAt [0x7E#8])) (fun t => (t.rxLen, t.errCount)) =
    some (2#16, 0#8) := by decide
/-- V-RX-14: the byte that overflows is dropped, even 7E. -/
theorem test_addByte_overflow : look (exec (.addByte 0x7E#8) (rxAt ([0x7E#8, 1#8, 0#8] ++ List.replicate 15 0#8)))
    (fun t => (t.rxLen, t.rxActive, t.errCount)) = some (0#16, .buf0, 1#8) := by decide
/-- V-RX-17: the count stays 255. -/
theorem test_addByte_saturates : look (exec (.addByte 0xFE#8) { rxAt [0x7E#8, 0#8, 0#8] with errCount := 255#8 })
    (fun t => (t.errCount, t.rxLen)) = some (255#8, 0#16) := by decide
/-- V-RX-3, first byte. -/
theorem test_addByte_desync : look (exec (.addByte 0x55#8) State.reset) (fun t => (t.rxLen, t.errCount, t.rxBuf0)) =
    some (0#16, 1#8, []) := by decide
/-- V-RX-18: a frame in progress stays in progress. -/
theorem test_rxNop : look (exec .rxNop (rxAt almost)) id =
    some { rxAt almost with out := { Outputs.quiet with rx := [none] } } := by decide
/-- V-BC-1. -/
theorem test_buildCmd : look (exec (.buildCmd [0x4E#8, 0x48#8]) State.reset) (fun t => (readBytes .txbuf 8 t, t.txLen,
    t.seqLast, t.out.bld)) =
    some ([0x7E#8, 0x00#8, 0x04#8, 0x08#8, 0x01#8, 0x4E#8, 0x48#8, 0x60#8], 8#16, 1#8, .ok) := by decide
/-- V-BC-7 with CAP = 18: L = 19. -/
theorem test_buildCmd_over : look (exec (.buildCmd (List.replicate 13 0#8)) (rxAt [])) id =
    some { rxAt [] with out := { Outputs.quiet with bld := .capacityExceeded } } := by decide
/-- V-BD-1. -/
theorem test_buildData : look (exec (.buildData 0#64 [0x48#8, 0x69#8]) State.reset) (fun t => (readBytes .txbuf 20 t,
    t.txLen, t.seqLast)) = some ([0x7E#8, 0x00#8, 0x10#8, 0x10#8, 0x01#8, 0x00#8, 0x00#8, 0x00#8, 0x00#8, 0x00#8, 0x00#8,
    0xFF#8, 0xFF#8, 0xFF#8, 0xFE#8, 0x00#8, 0x00#8, 0x48#8, 0x69#8, 0x42#8], 20#16, 1#8) := by decide
/-- V-BD-3. -/
theorem test_buildData_address : look (exec (.buildData 0x0013A20040A1B2C3#64 [1#8, 2#8, 3#8]) State.reset)
    (fun t => (readBytes .txbuf 21 t).drop 5) = some [0x00#8, 0x13#8, 0xA2#8, 0x00#8, 0x40#8, 0xA1#8, 0xB2#8, 0xC3#8,
    0xFF#8, 0xFE#8, 0x00#8, 0x00#8, 0x01#8, 0x02#8, 0x03#8, 0xE0#8] := by decide
/-- V-BC-5, second request: the id after 255 is 1. -/
theorem test_id_wraps : look (exec (.buildCmd [0x4E#8, 0x48#8]) { State.reset with seqLast := 255#8 })
    (fun t => (readBytes .txbuf 8 t).drop 4) = some [0x01#8, 0x4E#8, 0x48#8, 0x60#8] := by decide
/-- V-BN-1, V-BN-2. -/
theorem test_bldNop : look (exec .bldNop (rxAt almost)) id =
    some { rxAt almost with out := Outputs.quiet } := by decide
theorem test_bldReserved : look (exec .bldReserved (rxAt almost)) id =
    some { rxAt almost with out := Outputs.quiet } := by decide
/-- V-RD-3. -/
theorem test_rxRead : look (exec (.rxRead .buf0 3#16) (rxAt almost)) (fun t => t.out.rxrdData) = some (some 0x08#8) := by
  decide
/-- V-RD-4. -/
theorem test_rxRead_beyond : look (exec (.rxRead .buf1 65535#16) State.reset) (fun t => t.out.rxrdData) =
    some (some 0x00#8) := by decide
/-- V-RD-6. -/
theorem test_txRead : look (exec (.txRead 4#16) { State.reset with txBuf := [(4, 0x01#8)] }) (fun t => t.out.txrdData) =
    some (some 0x01#8) := by decide
/-- V-RD-5. -/
theorem test_txLen : look (exec .txLen State.reset) (fun t => t.out.txLenO) = some (some 0#16) := by decide
/-- V-RD-2, the read. -/
theorem test_errorCount : look (exec .errorCount { State.reset with errCount := 2#8 }) (fun t => t.out.errCountO) =
    some (some 0x02#8) := by decide
/-- R200's worked example. -/
theorem test_reset : look (exec .reset { rxAt almost with errCount := 7#8, seqLast := 200#8 }) (fun t => (t.rxLen,
    t.errCount, t.seqLast, t.rxBuf0)) = some (0#16, 0#8, 0#8, []) := by decide
/-- V-RX-8. -/
theorem test_frameGeneric : look (exec (.frameGeneric [0x33#8, 0#8] 0xCC#8) State.reset) (fun t => t.out.rx) =
    some (List.replicate 5 none ++ [some ⟨.buf0, 6#16⟩]) := by decide
/-- V-RX-1. -/
theorem test_frameAtCommand : look (exec (.frameAtCommand 0x52#8 [0x4E#8, 0x48#8, 0x0F#8]) State.reset)
    (fun t => (t.out.rx, readBytes .rxbuf0 8 t)) =
    some (List.replicate 7 none ++ [some ⟨.buf0, 8#16⟩], almost ++ [0x0F#8]) := by decide
/-- Program P1's frame. -/
theorem test_frameTransmitRequest : look (exec (.frameTransmitRequest 1#8 0xFFFF#64 [0x48#8, 0x69#8, 0x42#8]) State.reset)
    (fun t => (t.out.rx.drop 19, t.errCount)) = some ([some ⟨.buf0, 20#16⟩], 0#8) := by decide
/-- 0x88 + 0x77 = 0xFF. -/
theorem test_frameAtResponse : look (exec (.frameAtResponse [0x77#8]) State.reset) (fun t => t.out.rx) =
    some (List.replicate 4 none ++ [some ⟨.buf0, 5#16⟩]) := by decide
/-- V-RX-7. -/
theorem test_frameModemStatus : look (exec (.frameModemStatus [0x06#8, 0x6F#8]) State.reset) (fun t => t.out.rx) =
    some (List.replicate 5 none ++ [some ⟨.buf0, 6#16⟩]) := by decide
/-- 0x8B + 0x73 = 0xFE: a mismatch. -/
theorem test_frameTransmitStatus : look (exec (.frameTransmitStatus [0x73#8]) State.reset) (fun t => (t.out.rx,
    t.errCount)) = some (List.replicate 5 none, 1#8) := by decide
/-- 0x90 + 0x6F = 0xFF. -/
theorem test_frameReceivePacket : look (exec (.frameReceivePacket [0x6F#8]) State.reset) (fun t => t.out.rx) =
    some (List.replicate 4 none ++ [some ⟨.buf0, 5#16⟩]) := by decide
/-- V-CK-5, V-CK-9, V-CK-10. -/
theorem test_checksum : chkCompute (byteAt [0x7E#8, 0#8, 2#8, 0xFF#8, 0xFF#8]) 6 = 0x01#8 ∧
    chkVerify (byteAt [0x7E#8, 0#8, 4#8, 0x08#8, 0x52#8, 0x48#8, 0x4E#8, 0x0F#8]) 8 = true ∧
    chkVerify (byteAt [0xFF#8, 0xFF#8, 0xFF#8, 0x08#8, 0x52#8, 0x4E#8, 0x48#8, 0x0F#8]) 8 = true := by decide
/-- Program P6, step 1: both ports at one edge. -/
theorem test_step_both_ports : look (step { State.reset with inputs := [.edge { idlePins with
    rxw := 0x17E#9, bldOp := 0b01#2, bldPlen := 2#16, bldPayload := 0x484E }] }) (fun t => (t.rxLen, t.rxBuf0, t.txLen, t.out.bld)) =
    some (1#16, [(0, 0x7E#8)], 8#16, .ok) := by decide
/-- V-RS-4. -/
theorem test_step_reset_wins : look (step { State.reset with inputs := [.edge { idlePins with
    rst := true, rxw := 0x155#9 }] }) (fun t => (t.errCount, t.out.rx)) = some (0#8, [none]) := by decide
/-- The opcode table's word of FRAME.MODEM_STATUS, run as the first step after reset. -/
theorem test_step_table_word : look (step (State.reset.withFetchWord 32 0x7E00028A)) (fun t => (t.out.rx, t.errCount)) =
    some (List.replicate 6 none, 1#8) := by decide

/-! ### Witnesses: states and operands that meet the hypotheses of the statements -/

/-- The invariant of a state that has only a frame in progress, from facts that `decide` settles. -/
theorem rxAt_inv {bs : List Byte} (h1 : Memory.wf (rxAt bs).rxBuf0) (h2 : Memory.below (rxAt bs).rxBuf0 18)
    (h3 : (rxAt bs).rxLen.toNat ≤ 18) (h4 : writtenBelow (rxAt bs) .rxbuf0 (rxAt bs).rxLen.toNat)
    (h5 : 1 ≤ (rxAt bs).rxLen.toNat → memRead .rxbuf0 0 (rxAt bs) = Config.start)
    (h6 : 3 ≤ (rxAt bs).rxLen.toNat → (rxAt bs).rxLen.toNat < frameN (rxAt bs) + 4) : BlockInv (rxAt bs) where
  capLegal := by constructor <;> simp [rxAt]
  canonical sp := by cases sp <;> first | exact h1 | exact List.Pairwise.nil
  inSpace sp := by cases sp <;> first | exact h2 | exact fun _ h => nomatch h
  rxLenLe := h3
  rxWritten := h4
  rxStart := h5
  rxInProgress := h6
  txFrame := .inl rfl
  idIffBuilt := ⟨fun _ => rfl, fun _ => rfl⟩

/-- CAP = 18, buffer full: an oversize frame of which CAP bytes are in. -/
def full : List Byte := [0x7E#8, 1#8, 0#8] ++ List.replicate 15 0#8

/-- CAP = 18, one byte short of a frame of exactly CAP bytes. -/
def lastIndex : List Byte := [0x7E#8, 0#8, 14#8] ++ List.replicate 14 0#8

theorem witness_idle : BlockInv (rxAt []) ∧ rxState (rxAt []) = .idle ∧ (0x55#8 : Byte) ≠ 0x7E#8 :=
  ⟨rxAt_inv (by decide) (by decide) (by decide) (by decide) (by decide) (by decide), by decide, by decide⟩
theorem witness_headerHi : BlockInv (rxAt [0x7E#8]) ∧ rxState (rxAt [0x7E#8]) = .headerHi :=
  ⟨rxAt_inv (by decide) (by decide) (by decide) (by decide) (by decide) (by decide), by decide⟩
theorem witness_headerLo : BlockInv (rxAt [0x7E#8, 0#8]) ∧ rxState (rxAt [0x7E#8, 0#8]) = .headerLo :=
  ⟨rxAt_inv (by decide) (by decide) (by decide) (by decide) (by decide) (by decide), by decide⟩
/-- The first index of `Collecting`, with more than one byte to come. -/
theorem witness_collecting : BlockInv (rxAt [0x7E#8, 0#8, 1#8]) ∧ rxState (rxAt [0x7E#8, 0#8, 1#8]) = .collecting ∧
    (rxAt [0x7E#8, 0#8, 1#8]).rxLen.toNat + 1 ≠ frameN (rxAt [0x7E#8, 0#8, 1#8]) + 4 :=
  ⟨rxAt_inv (by decide) (by decide) (by decide) (by decide) (by decide) (by decide), by decide, by decide⟩
/-- The last index of the space: the byte there completes a frame of CAP bytes, valid or not. -/
theorem witness_lastIndex : BlockInv (rxAt lastIndex) ∧ rxState (rxAt lastIndex) = .collecting ∧
    (rxAt lastIndex).rxLen.toNat + 1 = (rxAt lastIndex).cap ∧
    (rxAt lastIndex).rxLen.toNat + 1 = frameN (rxAt lastIndex) + 4 ∧
    chkSum (fun i => memRead (activeSpace (rxAt lastIndex)) i (rxAt lastIndex)) 3 16 + 0xFF#8 = 0xFF#8 ∧
    chkSum (fun i => memRead (activeSpace (rxAt lastIndex)) i (rxAt lastIndex)) 3 16 + 0xFE#8 ≠ 0xFF#8 :=
  ⟨rxAt_inv (by decide) (by decide) (by decide) (by decide) (by decide) (by decide), by decide, by decide, by decide,
    by decide, by decide⟩
/-- The shortest frame's last byte: the first index at which one can complete. -/
theorem witness_shortest : 3 ≤ (rxAt [0x7E#8, 0#8, 0#8]).rxLen.toNat ∧
    (rxAt [0x7E#8, 0#8, 0#8]).rxLen.toNat + 1 = frameN (rxAt [0x7E#8, 0#8, 0#8]) + 4 ∧
    chkSum (fun i => memRead (activeSpace (rxAt [0x7E#8, 0#8, 0#8])) i (rxAt [0x7E#8, 0#8, 0#8])) 3 2 + 0xFF#8 = 0xFF#8 := by
  decide
theorem witness_full : BlockInv (rxAt full) ∧ rxState (rxAt full) = .collecting ∧ (rxAt full).rxLen.toNat = (rxAt full).cap :=
  ⟨rxAt_inv (by decide) (by decide) (by decide) (by decide) (by decide) (by decide), by decide, by decide⟩

/-- A busy block: a frame in progress in buffer 1, one in buffer 0, one built, seven errors counted, requests to come. -/
def busy : State :=
  { rxAt [] with
    rxBuf0 := Memory.insertAll [] 0 [0x7E#8, 0#8, 0#8, 0xFF#8], rxBuf1 := Memory.insertAll [] 0 [0x7E#8, 0#8, 4#8, 0x08#8],
    rxLen := 4#16, rxActive := .buf1, errCount := 7#8,
    txBuf := Memory.insertAll [] 0 [0x7E#8, 0#8, 2#8, 0x08#8, 0x01#8, 0xF6#8], txLen := 6#16, seqLast := 1#8,
    inputs := [.edge { idlePins with rxw := 0x152#9, bldOp := 0b01#2 }, .feed [0x7E#8, 0#8, 0#8, 0xFF#8]] }

theorem witness_busy : BlockInv busy where
  capLegal := by decide
  canonical sp := by cases sp <;> decide
  inSpace sp := by cases sp <;> decide
  rxLenLe := by decide
  rxWritten := by decide
  rxStart := by decide
  rxInProgress := by decide
  txFrame := .inr ⟨by decide, by decide, by decide, by decide, by decide, by decide, by decide, by decide⟩
  idIffBuilt := by decide

/-- `BlockNeverStops`, `StepKeepsInvariant`: a state other than reset (`witness_busy`), and its step. -/
theorem witness_step : look (step busy) (fun t => (t.rxLen, t.seqLast, t.txLen)) = some (5#16, 2#8, 6#16) := by decide
/-- `StepRunsDecodedFrame`: bytes at the head of the trace, one whole frame or a frame and a stray byte (R110). -/
theorem witness_step_feed :
    look (step { rxAt [] with inputs := [.feed [0x7E#8, 0#8, 0#8, 0xFF#8]] }) (fun t => t.out.rx) =
      some [none, none, none, some ⟨.buf0, 4#16⟩] ∧
    look (step { rxAt [] with inputs := [.feed [0x7E#8, 0#8, 0#8, 0xFF#8, 0x55#8]] }) (fun t => (t.out.rx, t.errCount)) =
      some ([none, none, none, some ⟨.buf0, 4#16⟩, none], 1#8) := by decide
/-- `ResetHasPriority`, `StepRunsDecodedRequests`, `ReadPortsShowStateBefore`: edges with and without `rst`. -/
theorem witness_edges :
    look (step { busy with inputs := [.edge { idlePins with rst := true, rxw := 0x155#9, txrd := 4#16 }] })
      (fun t => (t.seqLast, t.out.txrdData)) = some (0#8, some 0x01#8) ∧
    look (step { busy with inputs := [.edge { idlePins with rxrd := 0b00000000000000011#17, rxw := 0x101#9 }] })
      (fun t => (t.rxLen, t.out.rxrdData)) = some (5#16, some 0xFF#8) := by decide
/-- `IdleStepKeepsState`. -/
theorem witness_idle_step : look (step { busy with inputs := [] }) (fun t => (t.rxLen, t.out.rx)) =
    some (4#16, [none]) := by decide
/-- `StepRunsEncodedOperation`: a port operation and a frame row, and the quiet ones. -/
theorem witness_encoded : (Instr.buildCmd [0x4E#8]).wellFormed = true ∧ (Instr.frameModemStatus [0x75#8]).wellFormed = true ∧
    look (step { busy with inputs := [inputOfWord (encode (.buildCmd [0x4E#8]))] }) (fun t => (t.txLen, t.out.bld)) =
      some (7#16, .ok) ∧
    look (step { rxAt [] with inputs := [inputOfWord (encode (.frameModemStatus [0x75#8]))] }) (fun t => t.out.rx) =
      some (List.replicate 4 none ++ [some ⟨.buf0, 5#16⟩]) := by decide
/-- `AddByteDesync`, and its error counted to saturation: `StrayBytesCountOneEach`, `ErrorCountSaturates`. -/
theorem witness_stray : look (feed [0x55#8, 0x66#8, 0#8] { rxAt [] with errCount := 253#8 })
    (fun t => (t.errCount, t.rxLen)) = some (255#8, 0#16) ∧ errorsFed [0x55#8, 0x66#8, 0#8] (rxAt []) = 3 := by decide
/-- `LengthFieldStaysWhileCollecting`, `AddByteFrame`, `OnlyResetLowersErrorCount`, `UnitsOwnTheirState`. -/
theorem witness_collect : look (exec (.addByte 0x52#8) busy) (fun t => (t.rxLen, frameN t, t.errCount, t.seqLast)) =
    some (5#16, 4, 7#8, 1#8) := by decide
/-- `CompletionsAlternateBuffers`, `ReturnedFrameStaysReadable`, `FeedIsOneByteAnEdge`: three frames (property 3). -/
theorem witness_alternate :
    look (feed ([0x7E#8, 0#8, 0#8, 0xFF#8] ++ [0x7E#8, 0#8, 0#8, 0xFF#8] ++ [0x7E#8, 0#8, 0#8, 0xFF#8]) (rxAt []))
      (fun t => handlesOf t.out.rx) = some [⟨.buf0, 4#16⟩, ⟨.buf1, 4#16⟩, ⟨.buf0, 4#16⟩] ∧
    look (feed [0x7E#8, 0#8, 0#8, 0xFF#8] { busy with rxLen := 0#16 }) (fun t => (t.out.rx.dropLast, Memory.lookup t.rxBuf0 3)) =
      some ([none, none, none], some 0xFF#8) := by decide
/-- The shortest frame, and the state right after it was returned in buffer 0. -/
def shortest : List Byte := [0x7E#8, 0#8, 0#8, 0xFF#8]
def returned : State := { rxAt [] with rxBuf0 := Memory.insertAll [] 0 shortest, rxActive := .buf1 }
/-- `HandleReadsReturnedFrame`, R204: readable up to the byte that completes the next frame, after stray bytes too, and not
after a further frame or a RESET, which leave the other buffer active again. -/
theorem witness_handle :
    handleReadable ⟨.buf0, 4#16⟩ [.feed shortest, .feed [0x55#8], .edge { idlePins with bldOp := 0b01#2 }] returned = true ∧
    handleReadable ⟨.buf0, 4#16⟩ [.feed shortest, .feed [0x7E#8]] returned = false ∧
    handleReadable ⟨.buf0, 4#16⟩ [.feed shortest, .feed shortest] returned = false ∧
    handleReadable ⟨.buf1, 4#16⟩ [.edge { idlePins with rst := true }] { returned with rxActive := .buf0 } = false ∧
    look (runInputs [.feed shortest, .feed shortest] returned) (fun t => t.rxActive) = some .buf1 := by decide
/-- `HandleHasOneFrameOfSlack`, `LateReaderSeesMixOfFrames`: the states before and after the next frame, and what a late
caller reads of the old frame. -/
theorem witness_slack : BlockInv (rxAt []) ∧ (rxAt []).rxActive = .buf0 ∧ (rxAt []).rxLen = 0#16 ∧
    (rxAt []).rxActive = otherBuf .buf1 ∧
    look (feed shortest returned) (fun t => (t.rxActive, t.out.rx.dropLast)) = some (.buf0, [none, none, none]) ∧
    look (feed ((wireBytes [0x08#8, 0xF7#8]).take 3) { returned with rxActive := .buf0 }) (readBytes .rxbuf0 4) =
      some [0x7E#8, 0#8, 1#8, 0xFF#8] :=
  ⟨witness_idle.1, by decide, by decide, by decide, by decide, by decide⟩
/-- `BuiltFrameStaysUntilNextBuild`: bytes, a read and idle edges, but no build. -/
theorem witness_send : sendReadable [.feed shortest, .edge idlePins] = true ∧
    sendReadable [.edge { idlePins with bldOp := 0b10#2 }] = false ∧
    look (runInputs [.feed shortest, .edge idlePins] { busy with rxLen := 0#16 }) txFrame =
      some [0x7E#8, 0#8, 2#8, 0x08#8, 0x01#8, 0xF6#8] := by decide
/-- `UnwrittenBytesDoNotMatter`: the busy block under two sets of free values. -/
theorem witness_epochs : look (exec (.addByte 0x52#8) { busy with epoch := 9 }) (fun t => t.rxLen) = some 5#16 ∧
    isBuild (.buildData 5#64 []) = true := by decide
/-- `WholeFrameIsReceived`: each frame row, at the shortest frame and at one of exactly CAP = 18 bytes. -/
theorem witness_whole : ∀ i ∈ [Instr.frameGeneric [] 0xFF#8, .frameAtCommand 0xF7#8 [0#8],
    .frameTransmitRequest 1#8 0#64 [0xF1#8], .frameAtResponse [0x77#8], .frameModemStatus [0x75#8],
    .frameTransmitStatus [0x74#8], .frameReceivePacket (List.replicate 13 0#8 ++ [0x6F#8])],
    isFrame i = true ∧ frameFits (frameTail i) (rxAt []) ∧ tailVerifies (frameTail i) = true ∧ i.wellFormed = true := by
  decide
/-- `BadChecksumFrameIsDropped`, `FrameRowsFrame`: the same lengths with a wrong sum. -/
theorem witness_bad : ∀ i ∈ [Instr.frameGeneric [] 0xFE#8, .frameReceivePacket (List.replicate 13 0#8 ++ [0x6E#8])],
    isFrame i = true ∧ frameFits (frameTail i) (rxAt []) ∧ tailVerifies (frameTail i) = false ∧
      (look (exec i (rxAt [])) (fun t => t.errCount)) = some 1#8 := by decide
/-- `OversizeFrameOverflows`: one byte too many. -/
theorem witness_oversize : (rxAt []).rxLen = 0#16 ∧ (rxAt []).cap < (List.replicate 16 0#8).length + 3 := by decide
/-- `BuildCmdLaysOutFrame`, `BuildDataLaysOutFrame`, `BuildFailsExactlyOverCapacity`: exactly CAP and one more. -/
theorem witness_builds :
    look (exec (.buildCmd (List.replicate 12 0#8)) (rxAt [])) (fun t => (t.txLen, t.out.bld)) = some (18#16, .ok) ∧
    look (exec (.buildCmd (List.replicate 13 0#8)) (rxAt [])) (fun t => (t.txLen, t.out.bld)) =
      some (0#16, .capacityExceeded) ∧
    look (exec (.buildData 1#64 []) (rxAt [])) (fun t => (t.txLen, t.out.bld)) = some (18#16, .ok) ∧
    look (exec (.buildData 1#64 [0#8]) (rxAt [])) (fun t => (t.txLen, t.out.bld)) = some (0#16, .capacityExceeded) ∧
    buildLength (.buildData 1#64 []) = (rxAt []).cap := by decide
/-- `BuildReadsOnlySequencer`: two states that agree on CAP and `seq_last` alone. -/
theorem witness_two_states : busy.cap = { rxAt full with seqLast := 1#8 }.cap ∧
    look (exec (.buildCmd [0x4E#8]) busy) (fun t => (t.seqLast, readBytes .txbuf 7 t)) =
      look (exec (.buildCmd [0x4E#8]) { rxAt full with seqLast := 1#8 }) (fun t => (t.seqLast, readBytes .txbuf 7 t)) := by
  decide
/-- `BuiltFrameRoundTrip`: a data frame of exactly CAP bytes, built and fed back. -/
theorem witness_roundtrip : isBuild (.buildData 0#64 []) = true ∧ buildLength (.buildData 0#64 []) ≤ (rxAt []).cap ∧
    look (andThen (exec (.buildData 0#64 []) (rxAt [])) (fun t => feed (txFrame t) t)) (fun u => handlesOf u.out.rx) =
      some [⟨.buf0, 18#16⟩] := by decide
/-- `IdsNumberSuccessfulBuilds`: builds of both kinds. -/
theorem witness_ids : (∀ i ∈ [Instr.buildCmd [], .buildData 7#64 []], isBuild i = true ∧ buildLength i ≤ (rxAt []).cap) ∧
    look (execAll [.buildCmd [], .buildData 7#64 []] (rxAt [])) (fun t => (t.seqLast, memRead .txbuf 4 t)) =
      some (2#8, 2#8) := by decide
/-- `AddressZeroIsBroadcast`: an address that is not replaced, next to the one that is. -/
theorem witness_address : (1#64 : Addr) ≠ 0#64 ∧ destAddr 1#64 = 1#64 ∧ destAddr 0#64 = 0xFFFF#64 := by decide
/-- `ChecksumFunctionsAgree`: a valid array of the least length, and one with its summed byte changed. -/
theorem witness_checksum : chkVerify (byteAt [0x7E#8, 0#8, 0#8, 0xFF#8]) 4 = true ∧
    chkVerify (byteAt [0x7E#8, 0#8, 0#8, 0xFE#8]) 4 = false := by decide
/-- `IgnoredFieldsDoNotMatter`: two sets of pins that differ in ignored fields alone, with and without a build. -/
theorem witness_ignored :
    edge { idlePins with rxw := 0x055#9, bldAddr := 5#64, bldPlen := 3#16 } (rxAt []) = edge idlePins (rxAt []) ∧
    (0x1CAFE : Nat) % 256 ^ (2#16).toNat = 0xCAFE % 256 ^ (2#16).toNat := ⟨rfl, by decide⟩
/-- `DecodeEncodeRoundTrip`, `EncodeDecodedFrame`, `FrameRowsFeedTheirBytes`. -/
theorem witness_encode : decode (encode (.frameTransmitRequest 1#8 5#64 [2#8])) = .ok (.frameTransmitRequest 1#8 5#64 [2#8]) ∧
    decode (encode (.rxRead .buf1 0xFFFF#16)) = .ok (.rxRead .buf1 0xFFFF#16) := by decide

end Sys2Proof.Tests
end

section
/-! The state after reset, and what the invariant looks at beyond `Laws/Invariant`. -/

namespace Sys2Proof.Machine

/-- The invariant of a block with nothing written, received or built (10_state.md R34). -/
theorem BlockInv.of_cleared {s : State} (hcap : Config.legalCap s.cap) (hmem : ∀ sp, s.mem sp = [])
    (hrx : s.rxLen = 0#16) (htx : s.txLen = 0#16) (hseq : s.seqLast = 0#8) : BlockInv s where
  capLegal := hcap
  canonical sp := by rw [hmem]; exact .nil
  inSpace sp := by rw [hmem]; exact fun _ hc => nomatch hc
  rxLenLe := by simp [hrx]
  rxWritten := by simp [hrx, writtenBelow]
  rxStart := by simp [hrx]
  rxInProgress := by simp [hrx]
  txFrame := .inl htx
  idIffBuilt := by simp [htx, hseq]

@[simp] theorem reset_mem (sp : Space) : State.reset.mem sp = [] := by cases sp <;> rfl

/-- A new trace or new results do not touch the invariant. -/
theorem BlockInv.withOut {s : State} (hI : BlockInv s) (xs : List Input) (o : Outputs) :
    BlockInv { s with inputs := xs, out := o } :=
  .congr (s := s) ⟨rfl, rfl, rfl, rfl, rfl, rfl, rfl, rfl, rfl, rfl⟩ hI

/-- Settles O1: with no byte listed in any space, every byte is the free value of the first epoch. -/
theorem resetStateValues : Obligations.ResetStateValues :=
  ⟨rfl, rfl, rfl, rfl, rfl, fun sp i => by simp [memRead]⟩

/-- Settles O2: the reset state is a cleared block with the default capacity. -/
theorem resetMeetsInvariant : Obligations.ResetMeetsInvariant :=
  .of_cleared (by decide) reset_mem rfl rfl rfl

end Sys2Proof.Machine
end

section
/-! ADD_BYTE and the invariant: the store extends the written part of the active buffer, and the tests after it either
leave a frame in progress or the receiver in `Idle`. -/

namespace Sys2Proof.Machine

@[simp] theorem frameN_setRx (s : State) (r : List RxResult) : frameN (s.setRx r) = frameN s := by
  simp [frameN, activeSpace]

/-- The store extends the written part of the active buffer by its byte (40_receiver.md R103). -/
theorem writtenBelow_storedState (b : Byte) {s : State} (hlen : s.rxLen.toNat < 65535)
    (hw : writtenBelow s (activeSpace s) s.rxLen.toNat) :
    writtenBelow (storedState b s) (activeSpace s) (storedState b s).rxLen.toNat := by
  intro i hi
  rw [rxLen_storedState b s hlen] at hi
  rw [storedState_mem_active, Memory.lookup_insert]
  split_ifs with h
  · rfl
  · exact hw i (by omega)

/-- The store keeps every space canonical and within its CAP bytes. -/
theorem storedState_mem_wf_below (b : Byte) {s : State} (hI : BlockInv s) (hlt : s.rxLen.toNat < s.cap) (sp : Space) :
    Memory.wf ((storedState b s).mem sp) ∧ Memory.below ((storedState b s).mem sp) s.cap := by
  by_cases hsp : sp = activeSpace s
  · subst hsp
    rw [storedState_mem_active]
    exact ⟨Memory.wf_insert (hI.canonical _) _ _, Memory.below_insert (hI.inSpace _) hlt _⟩
  · rw [storedState_mem_other _ _ hsp]
    exact ⟨hI.canonical sp, hI.inSpace sp⟩

/-- With the byte stored and no frame complete, the frame in progress is as R33 items 1 and 2 want it. -/
theorem storedState_keeps_inv {b : Byte} {s : State} (hI : BlockInv s) (hlt : s.rxLen.toNat < s.cap)
    (hacc : ¬ (s.rxLen = 0#16 ∧ b ≠ Config.start))
    (hopen : (storedState b s).rxLen.toNat < 3 ∨ (storedState b s).rxLen.toNat ≠ frameN (storedState b s) + 4) :
    BlockInv (storedState b s) := by
  have hcap := hI.capLegal.2
  have hlen := rxLen_storedState b s (by omega)
  refine
    { capLegal := by simpa using hI.capLegal
      canonical := fun sp => (storedState_mem_wf_below b hI hlt sp).1
      inSpace := fun sp => by simpa using (storedState_mem_wf_below b hI hlt sp).2
      rxLenLe := by rw [hlen, storedState_cap]; omega
      rxWritten := by simpa using writtenBelow_storedState b (by omega) hI.rxWritten
      rxStart := fun _ => ?start
      rxInProgress := fun h3 => ?inProgress
      txFrame := by
        rw [storedState_txLen]
        exact hI.txFrame.imp_right (.congr (by simp) (by simp) (by simp) (by simp) (by simp))
      idIffBuilt := by simpa using hI.idIffBuilt }
  case start =>
    rw [activeSpace_storedState]
    by_cases h0 : s.rxLen = 0#16
    · have hstored := memRead_storedState_at b s
      rw [h0] at hstored
      exact hstored.trans (not_not.mp fun hb => hacc ⟨h0, hb⟩)
    · have hpos : s.rxLen.toNat ≠ 0 := fun h => h0 (BitVec.eq_of_toNat_eq h)
      rw [memRead_storedState_ne _ _ (.inr (by omega))]
      exact hI.rxStart (by omega)
  case inProgress =>
    have hne := hopen.resolve_left (by omega)
    by_cases hs : 3 ≤ s.rxLen.toNat
    · have hN := frameN_storedState b s hs
      have := hI.rxInProgress hs
      omega
    · omega

/-- The tests after the store keep the invariant: they leave a frame in progress or the receiver in `Idle`. -/
theorem afterStore_keeps_inv {b : Byte} {s : State} (hI : BlockInv s) (hlt : s.rxLen.toNat < s.cap)
    (hacc : ¬ (s.rxLen = 0#16 ∧ b ≠ Config.start)) : BlockInv (afterStore (storedState b s)) := by
  rcases afterStore_cases (storedState b s) with ⟨hopen, h⟩ | ⟨-, -, -, h⟩ | ⟨-, -, -, h⟩ <;> rw [h]
  · exact (storedState_keeps_inv hI hlt hacc hopen).withOut _ _
  all_goals
    exact hI.idle (by simp) (by simp) (by simpa using storedState_mem_wf_below b hI hlt) rfl (by simp) (by simp)
      (by simp)

/-- The recovery of R175 keeps the invariant. -/
theorem raiseError_keeps_inv (e : RxError) {s : State} (hI : BlockInv s) : BlockInv (raiseError e s) :=
  hI.idle rfl rfl (fun sp => by rw [raiseError_mem]; exact ⟨hI.canonical sp, hI.inSpace sp⟩) rfl rfl rfl rfl

theorem execAddByte_keeps_inv {b : Byte} {s t : State} (hI : BlockInv s) (h : execAddByte b s = .next t) :
    BlockInv t := by
  rcases execAddByte_cases h with ⟨-, rfl⟩ | ⟨-, -, -, rfl⟩ | ⟨hlt, hacc, rfl⟩
  · exact raiseError_keeps_inv _ hI
  · exact raiseError_keeps_inv _ hI
  · exact afterStore_keeps_inv hI hlt hacc

theorem feed_keeps_inv {bs : List Byte} {s t : State} (hI : BlockInv s) (h : feed bs s = .next t) : BlockInv t :=
  feed_keeps (P := fun s t => BlockInv s → BlockInv t) (fun _ _ hs => hs.withOut _ _)
    (fun _ _ _ _ hab hbc ha => (hbc (hab ha)).withOut _ _) (fun _ _ _ h hs => execAddByte_keeps_inv hs h) bs s t h hI

/-- Settles O14: the receiver's state is a range of `rx_len` (`rxState_facts`), and the range of `Complete` is the one
that R33 item 2 excludes. -/
theorem receiverStateAtBoundary : Obligations.ReceiverStateAtBoundary := by
  intro s hI
  obtain ⟨hidle, hhi, hlo, hcollecting⟩ := rxState_facts s
  refine ⟨hidle, hhi, hlo, hcollecting, fun hcomplete => ?_⟩
  simp only [hcomplete, reduceCtorEq, false_iff] at hidle hhi hlo hcollecting
  have := hI.rxInProgress
  omega

/-- Settles O15: the only answer with a frame in progress is a store at index 3 or above, which leaves bytes 1 and 2. -/
theorem lengthFieldStaysWhileCollecting : Obligations.LengthFieldStaysWhileCollecting := by
  intro s b t h3 h hne
  rcases execAddByte_cases h with ⟨-, rfl⟩ | ⟨-, -, -, rfl⟩ | ⟨-, -, rfl⟩
  · exact absurd rfl hne
  · exact absurd rfl hne
  · rcases afterStore_cases (storedState b s) with ⟨-, e⟩ | ⟨-, -, -, e⟩ | ⟨-, -, -, e⟩ <;> rw [e] at hne ⊢
    · rw [frameN_setRx, frameN_storedState b s h3]
    · exact absurd rfl hne
    · exact absurd rfl hne

end Sys2Proof.Machine
end

section
/-! Every step keeps the invariant: the builds, the operations by their shapes, then the edge and the step. -/

namespace Sys2Proof.Machine

/-- A successful build leaves a whole valid frame (10_state.md R33 item 4, 41_builder.md R123). -/
theorem txFrameOk_built {frame : List Byte} {s : State} (hcap : Config.legalCap s.cap) (h6 : 6 ≤ frame.length)
    (hfit : frame.length ≤ s.cap) (hf : FrameShape frame (nextId s.seqLast)) :
    TxFrameOk (builtState frame frame.length s) := by
  have hlen : (builtState frame frame.length s).txLen.toNat = frame.length := by
    rw [builtState_txLen, BitVec.toNat_ofNat]
    have := hcap.2
    omega
  have hread : ∀ {j v}, frame[j]? = some v → memRead .txbuf j (builtState frame frame.length s) = v := by
    intro j v hv
    obtain ⟨hj, -⟩ := List.getElem?_eq_some_iff.mp hv
    exact Option.some.inj ((memRead_builtState_tx frame _ s hj).trans hv)
  obtain ⟨hi, lo, hhi, hlo, hN⟩ := hf.length
  refine
    { sizeLow := by rw [hlen]; exact h6
      sizeHigh := by rw [hlen]; exact hfit
      written := fun i hi => ?written
      start := hread hf.start
      length := by rw [hlen, hread hhi, hread hlo]; exact hN (hfit.trans hcap.2)
      type := hf.type.imp hread hread
      id := hread hf.ident
      verifies := by
        rw [hlen]; exact chkVerify_of_sealed (fun k hk => memRead_builtState_tx frame _ s hk) hf.sealed }
  case written =>
    rw [hlen] at hi
    rw [lookup_builtState, if_pos hi, List.getElem?_eq_getElem hi]
    rfl

/-- A successful build keeps the invariant: it leaves the receiver alone and draws an id that is not 0. -/
theorem builtState_keeps_inv {frame : List Byte} {s : State} (hI : BlockInv s) (h6 : 6 ≤ frame.length)
    (hfit : frame.length ≤ s.cap) (hf : FrameShape frame (nextId s.seqLast)) :
    BlockInv (builtState frame frame.length s) := by
  have hok := txFrameOk_built hI.capLegal h6 hfit hf
  have hread := memRead_builtState_rx frame frame.length s s.rxActive
  have hmem := builtState_mem_rx frame frame.length s s.rxActive
  have htx : Memory.wf ((builtState frame frame.length s).mem .txbuf) ∧
      Memory.below ((builtState frame frame.length s).mem .txbuf) s.cap :=
    ⟨Memory.wf_insertAll frame (hI.canonical .txbuf) 0, Memory.below_insertAll frame (hI.inSpace .txbuf) (by omega)⟩
  exact
    { capLegal := hI.capLegal
      canonical := by
        rintro (_ | _ | _)
        exacts [hI.canonical .rxbuf0, hI.canonical .rxbuf1, htx.1]
      inSpace := by
        rintro (_ | _ | _)
        exacts [hI.inSpace .rxbuf0, hI.inSpace .rxbuf1, htx.2]
      rxLenLe := hI.rxLenLe
      rxWritten := fun i hi => hmem ▸ hI.rxWritten i hi
      rxStart := fun h => (hread 0).trans (hI.rxStart h)
      rxInProgress := fun h => by
        simp only [frameN, activeSpace, builtState_rxActive, hread]
        exact hI.rxInProgress h
      txFrame := .inr hok
      idIffBuilt := by
        refine iff_of_false (nextId_ne_zero s.seqLast) fun h0 => ?_
        have := hok.sizeLow
        rw [h0] at this
        exact absurd this (by decide) }

theorem build_keeps_inv {i : Instr} (hb : isBuild i = true) {s t : State} (hI : BlockInv s)
    (h : exec i s = .next t) : BlockInv t := by
  rw [exec_build hb] at h
  by_cases hfit : buildLength i ≤ s.cap
  · rw [build_fits hfit] at h
    cases h
    have hlen := length_buildFrame hb (nextId s.seqLast)
    rw [← hlen] at hfit ⊢
    exact builtState_keeps_inv hI (hlen ▸ buildLength_ge hb) hfit (frameShape_build hb _)
  · rw [build_over (by omega)] at h
    cases h
    exact hI.withOut _ _

theorem execReset_keeps_inv {s t : State} (hI : BlockInv s) (h : execReset s = .next t) : BlockInv t := by
  cases h
  exact .of_cleared hI.capLegal (by simp) rfl rfl rfl

/-- Every operation keeps the invariant (10_state.md R33). -/
theorem exec_keeps_inv {i : Instr} {s t : State} (hI : BlockInv s) (h : exec i s = .next t) : BlockInv t := by
  cases instrShape i with
  | reset => exact execReset_keeps_inv hI h
  | addByte b => exact execAddByte_keeps_inv hI h
  | build _ hb => exact build_keeps_inv hb hI h
  | frame _ hf => exact feed_keeps_inv hI ((exec_frame hf s).symm.trans h)
  | bldQuiet _ hq => rw [hq] at h; cases h; exact hI.withOut _ _
  | rxNop | rxRead | txRead | txLen | errorCount => cases h; exact hI.withOut _ _

theorem edge_keeps_inv {p : Pins} {s t : State} (hI : BlockInv s) (h : edge p s = .next t) : BlockInv t := by
  have hsampled : BlockInv (sampledState p s) := hI.withOut _ _
  cases hr : p.rst with
  | true => exact execReset_keeps_inv hsampled ((edge_rst hr s).symm.trans h)
  | false =>
    rw [edge_request hr, andThen_eq_next] at h
    obtain ⟨u, hu, ht⟩ := h
    exact exec_keeps_inv (exec_keeps_inv hsampled hu) ht

theorem runBytes_keeps_inv {bytes : List Byte} {s t : State} (hI : BlockInv s) (h : runBytes bytes s = .next t) :
    BlockInv t := by
  cases hd : decode (.wire bytes) with
  | ok i => exact exec_keeps_inv hI ((runBytes_ok hd s).symm.trans h)
  | error r => exact feed_keeps_inv hI ((runBytes_error hd s).symm.trans h)

/-- Settles O3: a step is an edge or the bytes of a FEED, and both are operations, each of which keeps the invariant. -/
theorem stepKeepsInvariant : Obligations.StepKeepsInvariant := by
  intro s t hI h
  cases hin : s.inputs with
  | nil => exact edge_keeps_inv hI ((step_nil hin).symm.trans h)
  | cons x rest =>
    cases x with
    | edge p => exact edge_keeps_inv (hI.withOut _ _) ((step_edge hin).symm.trans h)
    | feed bytes => exact runBytes_keeps_inv (hI.withOut _ _) ((step_feed hin).symm.trans h)

end Sys2Proof.Machine
end

section
/-! Other free values for the unwritten bytes (10_state.md R35): ADD_BYTE reads only bytes of the frame in progress, all
written, and a build reads none. -/

namespace Sys2Proof.Machine

/-- The store does not look at the free values. -/
theorem storedState_epoch_update (b : Byte) (s : State) (e : Nat) :
    storedState b { s with epoch := e } = { storedState b s with epoch := e } := by
  cases hk : s.rxActive <;> simp [storedState, activeSpace, hk, rxSpace, State.setMem, State.mem, State.setRxLen]

/-- Where the frame in progress is written, its length field does not depend on the free values. -/
theorem frameN_epoch_update {u : State} (hw : writtenBelow u (activeSpace u) u.rxLen.toNat) (h3 : 3 ≤ u.rxLen.toNat)
    (e : Nat) : frameN { u with epoch := e } = frameN u := by
  have hread : ∀ i < 3, memRead (activeSpace u) i { u with epoch := e } = memRead (activeSpace u) i u :=
    fun i hi => memRead_epoch (hw i (by omega)) e
  show lengthField (memRead (activeSpace u) 1 _) (memRead (activeSpace u) 2 _) = _
  rw [hread 1 (by omega), hread 2 (by omega)]
  rfl

/-- Nor does its checksum test. -/
theorem chkVerify_epoch_update {u : State} (hw : writtenBelow u (activeSpace u) u.rxLen.toNat)
    (h3 : 3 ≤ u.rxLen.toNat) (e : Nat) :
    chkVerify (fun i => memRead (activeSpace u) i { u with epoch := e }) u.rxLen.toNat =
      chkVerify (fun i => memRead (activeSpace u) i u) u.rxLen.toNat :=
  chkVerify_congr (fun i _ hi => memRead_epoch (hw i hi) e) (by omega)

theorem afterStore_epoch_update {u : State} (hw : writtenBelow u (activeSpace u) u.rxLen.toNat) (e : Nat) :
    afterStore { u with epoch := e } = { afterStore u with epoch := e } := by
  rcases afterStore_cases u with ⟨hopen, h⟩ | ⟨h3, hN, hv, h⟩ | ⟨h3, hN, hv, h⟩ <;> rw [h]
  · refine afterStore_open (u := { u with epoch := e }) ?_
    by_cases h3 : u.rxLen.toNat < 3
    · exact .inl h3
    · rw [frameN_epoch_update hw (by omega)]
      exact hopen
  · exact afterStore_valid (u := { u with epoch := e }) h3 (by rw [frameN_epoch_update hw h3]; exact hN)
      ((chkVerify_epoch_update hw h3 e).trans hv)
  · exact afterStore_bad (u := { u with epoch := e }) h3 (by rw [frameN_epoch_update hw h3]; exact hN)
      ((chkVerify_epoch_update hw h3 e).trans hv)

theorem execAddByte_epoch_update (b : Byte) {s : State} (hI : BlockInv s) (e : Nat) :
    execAddByte b { s with epoch := e } = withEpoch e (execAddByte b s) := by
  rcases addByteCase b s with hfull | ⟨hne, h0, hb⟩ | ⟨hne, hacc⟩
  · rw [execAddByte_overflow hfull, execAddByte_overflow (s := { s with epoch := e }) hfull]
    rfl
  · rw [execAddByte_desync hne h0 hb, execAddByte_desync (s := { s with epoch := e }) hne h0 hb]
    rfl
  · have hlt := lt_of_le_of_ne hI.rxLenLe hne
    have hcap := hI.capLegal.2
    have hw := writtenBelow_storedState b (by omega) hI.rxWritten
    rw [execAddByte_store hlt hacc, execAddByte_store (s := { s with epoch := e }) hlt hacc, storedState_epoch_update,
      afterStore_epoch_update (by simpa using hw)]
    rfl

/-- A build reads no byte of any buffer space. -/
theorem build_epoch_update (len : Nat) (frame : Byte → List Byte) (s : State) (e : Nat) :
    build len frame { s with epoch := e } = withEpoch e (build len frame s) := by
  by_cases hfit : len ≤ s.cap
  · rw [build_fits hfit, build_fits (s := { s with epoch := e }) hfit]
    rfl
  · have hover : s.cap < len := by omega
    rw [build_over hover, build_over (s := { s with epoch := e }) hover]
    rfl

/-- Settles O23: the bytes ADD_BYTE looks at are those of the frame in progress, which the invariant says are written. -/
theorem unwrittenBytesDoNotMatter : Obligations.UnwrittenBytesDoNotMatter := by
  refine ⟨fun s b e hI => execAddByte_epoch_update b hI e, fun s i e hb => ?_⟩
  rw [exec_build hb, exec_build hb, build_epoch_update]

end Sys2Proof.Machine
end

section
/-! Who writes what (20_memory.md R51, R59): the bytes ADD_BYTE leaves alone, what a build can answer, and the owner of
each part of the state over every operation. -/

namespace Sys2Proof.Machine

/-- ADD_BYTE writes no byte but the one at index `rx_len` of the active buffer (40_receiver.md R103). -/
theorem execAddByte_memRead_ne {b : Byte} {s t : State} (h : execAddByte b s = .next t) {sp : Space} {i : Nat}
    (hne : sp ≠ activeSpace s ∨ i ≠ s.rxLen.toNat) : memRead sp i t = memRead sp i s := by
  rcases execAddByte_cases h with ⟨-, rfl⟩ | ⟨-, -, -, rfl⟩ | ⟨-, -, rfl⟩
  · exact memRead_raiseError _ s sp i
  · exact memRead_raiseError _ s sp i
  · rw [afterStore_memRead, memRead_storedState_ne b s hne]

/-- A rejected byte is not stored at all (40_receiver.md R101, R102). -/
theorem execAddByte_memRead_rejected {b : Byte} {s t : State} (h : execAddByte b s = .next t)
    (hrej : s.rxLen.toNat = s.cap ∨ (s.rxLen = 0#16 ∧ b ≠ Config.start)) (sp : Space) (i : Nat) :
    memRead sp i t = memRead sp i s := by
  rcases execAddByte_cases h with ⟨-, rfl⟩ | ⟨-, -, -, rfl⟩ | ⟨hlt, hacc, -⟩
  · exact memRead_raiseError _ s sp i
  · exact memRead_raiseError _ s sp i
  · exact absurd (hrej.resolve_left hlt.ne) hacc

/-- Settles O16: ADD_BYTE never leaves the receiver's part (`execAddByte_frame`), its one store is at index `rx_len` of
the active buffer, and the active buffer changes with a handle alone (`execAddByte_rx`). -/
theorem addByteFrame : Obligations.AddByteFrame := by
  intro s b t h
  obtain ⟨hcap, hepoch, htx, hlen, hseq, hinputs, hout, -⟩ := execAddByte_frame h
  refine ⟨⟨htx.symm, hlen.symm, hseq.symm⟩, hcap, hepoch, hinputs, hout, fun sp i => execAddByte_memRead_ne h,
    execAddByte_memRead_rejected h, ?_⟩
  rcases execAddByte_rx h with ⟨-, hactive⟩ | ⟨n, hrx, -, -⟩
  · exact .inl hactive
  · exact .inr ⟨_, hrx⟩

/-- The two answers of a build (41_builder.md R122, R123). -/
theorem exec_build_cases {i : Instr} (hb : isBuild i = true) (s : State) :
    (s.cap < buildLength i ∧ exec i s = .next (failBuild s)) ∨
    (buildLength i ≤ s.cap ∧ exec i s = .next (builtState (buildFrame i (nextId s.seqLast)) (buildLength i) s)) := by
  rw [exec_build hb]
  rcases lt_or_ge s.cap (buildLength i) with hover | hfit
  · exact .inl ⟨hover, build_over hover⟩
  · exact .inr ⟨hfit, build_fits hfit⟩

/-- A build leaves the receiver's state alone, and CAP, the free values and the queue. -/
theorem exec_build_frame {i : Instr} (hb : isBuild i = true) {s t : State} (h : exec i s = .next t) :
    t.cap = s.cap ∧ t.inputs = s.inputs ∧ t.epoch = s.epoch ∧ sameReceiver s t := by
  rcases exec_build_cases hb s with ⟨-, e⟩ | ⟨-, e⟩
  all_goals
    rw [e] at h
    cases h
    exact ⟨rfl, rfl, rfl, rfl, rfl, rfl, rfl, rfl⟩

/-- Settles O51, by the shapes of an operation: ADD_BYTE and the frame rows leave the builder's part, the builds leave
the receiver's, and a read port or a no-operation writes results alone. -/
theorem unitsOwnTheirState : Obligations.UnitsOwnTheirState := by
  intro i s t h
  cases instrShape i with
  | reset => cases h; exact ⟨rfl, rfl, fun hne => absurd rfl hne⟩
  | addByte b =>
    obtain ⟨hcap, hepoch, htx, hlen, hseq, hinputs, -, -⟩ := execAddByte_frame h
    exact ⟨hcap, hinputs, fun _ =>
      ⟨hepoch, fun _ => ⟨htx.symm, hlen.symm, hseq.symm⟩, fun _ hne => absurd rfl (hne b)⟩⟩
  | frame _ hf =>
    rw [exec_frame hf] at h
    obtain ⟨hcap, hepoch, htx, hlen, hseq, hinputs, -⟩ := feed_frame h
    exact ⟨hcap, hinputs, fun _ =>
      ⟨hepoch, fun _ => ⟨htx.symm, hlen.symm, hseq.symm⟩, fun hn => absurd (hf.symm.trans hn) (by decide)⟩⟩
  | build _ hb =>
    obtain ⟨hcap, hinputs, hepoch, hrx⟩ := exec_build_frame hb h
    exact ⟨hcap, hinputs, fun _ => ⟨hepoch, fun hn => absurd (hb.symm.trans hn) (by decide), fun _ _ => hrx⟩⟩
  | bldQuiet _ hq =>
    rw [hq] at h
    cases h
    exact ⟨rfl, rfl, fun _ => ⟨rfl, fun _ => ⟨rfl, rfl, rfl⟩, fun _ _ => ⟨rfl, rfl, rfl, rfl, rfl⟩⟩⟩
  | rxNop | rxRead | txRead | txLen | errorCount =>
    cases h
    exact ⟨rfl, rfl, fun _ => ⟨rfl, fun _ => ⟨rfl, rfl, rfl⟩, fun _ _ => ⟨rfl, rfl, rfl, rfl, rfl⟩⟩⟩

/-- No operation changes CAP (00_scope.md R6). -/
theorem exec_cap {i : Instr} {s t : State} (h : exec i s = .next t) : t.cap = s.cap := (unitsOwnTheirState i s t h).1

end Sys2Proof.Machine
end

section
/-! The two operations of one edge commute (20_memory.md R59): each works on its own part of a `graft` and carries the
other part along. -/

namespace Sys2Proof.Machine

@[simp] theorem graft_self (s : State) : graft s s = s := rfl

/-- The receiver's operation carries the rest of the state along. -/
theorem receiverOp_graft (p : Pins) (u s : State) :
    receiverOp p (graft u s) = andThen (receiverOp p s) (fun r => .next (graft u r)) := by
  unfold receiverOp decodeRxw
  split_ifs
  · exact execAddByte_graft _ u s
  · rfl

/-- What the receiver's operation does not own it leaves as it is. -/
theorem graft_of_receiverOp {p : Pins} {s r : State} (h : receiverOp p s = .next r) : graft s r = r := by
  have hself := receiverOp_graft p s s
  rw [graft_self, h, andThen_next, Host.Outcome.next.injEq] at hself
  exact hself.symm

/-- A request at the builder's port is a build or changes nothing but the builder's result (30_encoding.md R85, R89). -/
theorem decodeBld_cases (op : BitVec 2) (addr : Addr) (plen : Half) (payload : Nat) :
    isBuild (decodeBld op addr plen payload) = true ∨
      ∀ s, exec (decodeBld op addr plen payload) s = .next (s.setBld .idle) := by
  unfold decodeBld
  split_ifs
  · exact .inr fun _ => rfl
  · exact .inl rfl
  · exact .inl rfl
  · exact .inr fun _ => rfl

/-- The builder's operation always answers, changes the builder's part alone, and does the same to that part beside
any other receiver of the same CAP. -/
theorem builderOp_graft (p : Pins) (s : State) :
    ∃ v, builderOp p s = .next v ∧ graft v s = v ∧
      ∀ r, r.cap = s.cap → builderOp p (graft s r) = .next (graft v r) := by
  unfold builderOp
  rcases decodeBld_cases p.bldOp p.bldAddr p.bldPlen p.bldPayload with hb | hquiet
  · rcases exec_build_cases hb s with ⟨hover, e⟩ | ⟨hfit, e⟩
    · refine ⟨_, e, rfl, fun r hr => ?_⟩
      rw [exec_build hb, build_over (s := graft s r) (hr.trans_lt hover)]
      rfl
    · refine ⟨_, e, rfl, fun r hr => ?_⟩
      rw [exec_build hb, build_fits (s := graft s r) (hfit.trans_eq hr.symm)]
      rfl
  · exact ⟨_, hquiet s, rfl, fun r _ => hquiet (graft s r)⟩

/-- Settles O50: with `v` what the builder leaves, both orders are the receiver's operation on `s` with `v`'s builder
grafted in. -/
theorem portOperationsCommute : Obligations.PortOperationsCommute := by
  intro p s
  obtain ⟨v, hv, hgraft, hbeside⟩ := builderOp_graft p s
  have hright : andThen (builderOp p s) (receiverOp p) = andThen (receiverOp p s) (fun r => .next (graft v r)) := by
    rw [hv, andThen_next, ← receiverOp_graft, hgraft]
  rw [hright]
  cases hr : receiverOp p s with
  | next r =>
    have hb := hbeside r (exec_cap hr)
    rw [graft_of_receiverOp hr] at hb
    rw [andThen_next, andThen_next, hb]
  | fault _ => rfl
  | refused _ => rfl

end Sys2Proof.Machine
end

section
/-! Whole runs of bytes: the buffer that is not active up to the next valid completion (20_memory.md R64), and the bytes
a frame row leaves alone (R51). -/

namespace Sys2Proof.Machine

/-- FEED answers one result a byte (30_encoding.md R91). -/
theorem length_feed_rx : ∀ {bs : List Byte} {s t : State}, feed bs s = .next t → t.out.rx.length = bs.length := by
  intro bs
  induction bs with
  | nil => intro s t h; cases h; rfl
  | cons b bs ih =>
    intro s t h
    obtain ⟨s1, u, h1, h2, rfl⟩ := feed_cons_next.mp h
    have hone : s1.out.rx.length = 1 := by
      rcases execAddByte_rx h1 with ⟨hrx, -⟩ | ⟨n, hrx, -, -⟩ <;> rw [hrx] <;> rfl
    rw [setRx_out_rx, List.length_append, hone, ih h2, List.length_cons, Nat.add_comm]

/-- ADD_BYTE that returns no handle keeps the active buffer. -/
theorem execAddByte_rxActive_of_none {b : Byte} {s t : State} (h : execAddByte b s = .next t)
    (hnone : ∀ r ∈ t.out.rx, r = none) : t.rxActive = s.rxActive := by
  rcases execAddByte_rx h with ⟨-, hactive⟩ | ⟨n, hrx, -, -⟩
  · exact hactive
  · exact absurd (hnone (some _) (by rw [hrx]; exact List.mem_singleton_self _)) (Option.some_ne_none _)

/-- Bytes of which at most the last completes a frame are none of them stored into the buffer that is not active: the
buffers swap only after that byte (20_memory.md R64). -/
theorem feedStoresInto_inactive {k : BufId} : ∀ {bs : List Byte} {s t : State}, s.rxActive = otherBuf k →
    feed bs s = .next t → (∀ r ∈ t.out.rx.dropLast, r = none) → feedStoresInto k bs s = false := by
  intro bs
  induction bs with
  | nil => intro _ _ _ _ _; rfl
  | cons b bs ih =>
    intro s t hk h hnone
    obtain ⟨s1, u, h1, h2, rfl⟩ := feed_cons_next.mp h
    rw [feedStoresInto_cons h1, storesInto_inactive hk b, Bool.false_or]
    by_cases hbs : bs = []
    · subst hbs; rfl
    · have hne : u.out.rx ≠ [] := by
        rw [← List.length_pos_iff, length_feed_rx h2]
        exact List.length_pos_iff.mpr hbs
      rw [setRx_out_rx, List.dropLast_append_of_ne_nil hne, List.forall_mem_append] at hnone
      obtain ⟨hfirst, hrest⟩ := hnone
      exact ih ((execAddByte_rxActive_of_none h1 hfirst).trans hk) h2 hrest

/-- Settles O22: no byte is stored into the buffer that is not active, so its contents stay as they are. -/
theorem returnedFrameStaysReadable : Obligations.ReturnedFrameStaysReadable := by
  intro bytes s t h hnone i
  obtain ⟨-, hepoch, -⟩ := feed_frame h
  have hstored := feedStoresInto_inactive (otherBuf_otherBuf s.rxActive).symm h hnone
  exact memRead_congr hepoch (by rw [feed_not_stored hstored h])

/-- A frame that fits CAP, fed in `Idle`, writes its own bytes of the active buffer alone: all but the last are stored
without completing it (`feed_frame_open`), and the last one stands right after them. -/
theorem feed_wireBytes_memRead {tail : List Byte} {s t : State} (hcap : Config.legalCap s.cap) (h0 : s.rxLen = 0#16)
    (hfits : frameFits tail s) (h : feed (wireBytes tail) s = .next t) {sp : Space} {j : Nat}
    (hj : sp ≠ activeSpace s ∨ tail.length + 3 ≤ j) : memRead sp j t = memRead sp j s := by
  obtain ⟨hpos, hfit⟩ := hfits
  obtain ⟨pre, ck, rfl⟩ := (List.eq_nil_or_concat' tail).resolve_left (List.ne_nil_of_length_pos hpos)
  have hlen : (pre ++ [ck]).length = pre.length + 1 := by simp
  obtain ⟨t1, hpre, hrun, -⟩ := feed_frame_open (pre ++ [ck]) pre hcap h0 hpos (by omega) (by omega) (by omega)
  obtain ⟨t2, u, h2, h3, rfl⟩ := (feed_append_next (as := Config.start :: _ :: _ :: pre)).mp h
  cases hpre.symm.trans h2
  obtain ⟨s1, v, hlast, hnil, rfl⟩ := feed_cons_next.mp h3
  cases hnil
  have hrxLen : t1.rxLen.toNat = pre.length + 3 := by
    rw [hrun.rxLen, h0]
    simp
  simp only [memRead_setRx]
  rw [execAddByte_memRead_ne hlast, hrun.other]
  · refine hj.imp_right fun hj => .inr ?_
    rw [h0]
    simp only [List.length_cons, BitVec.toNat_ofNat]
    omega
  · rw [hrun.activeSpace_eq, hrxLen]
    exact hj.imp_right fun hj => by omega

/-- Settles O28: a frame row is the FEED of its bytes, which leaves all but the receiver's part (`feed_frame`) and, from
`Idle`, all bytes but the frame's own. -/
theorem frameRowsFrame : Obligations.FrameRowsFrame := by
  intro i s t hf h
  rw [exec_frame hf] at h
  obtain ⟨hcap, hepoch, htx, hlen, hseq, hinputs, hout⟩ := feed_frame h
  have htxbuf : t.mem .txbuf = s.mem .txbuf := htx
  exact ⟨⟨htx.symm, hlen.symm, hseq.symm⟩, hcap, hepoch, hinputs, hout,
    fun j => memRead_congr hepoch (by rw [htxbuf]),
    fun h0 hfits hlegal sp j hj => feed_wireBytes_memRead hlegal h0 hfits h hj⟩

end Sys2Proof.Machine
end

section
/-! The encodings (30_encoding.md R71 to R79): the frame rows are exactly the nonempty byte sequences after the length
field, each in one row, so decoding and encoding undo each other. -/

namespace Sys2Proof.Machine

/-- The header that a length field announces is the one `wireBytes` writes (R71, R72). -/
theorem wireBytes_of_length {hi lo : Byte} {tail : List Byte} (h : tail.length = lengthField hi lo + 1) :
    wireBytes tail = Config.start :: hi :: lo :: tail := by
  rw [wireBytes, h, Nat.add_sub_cancel, hiByte_lengthField, loByte_lengthField]

/-- A frame whose length fits the length field decodes by its bytes from index 3 on (R79). -/
theorem decode_wireBytes {tail : List Byte} (hpos : 1 ≤ tail.length) (hle : tail.length ≤ 65536) :
    decode (.wire (wireBytes tail)) = .ok (decodeTail tail) :=
  decodeWire_ok.mpr ⟨_, _, tail, rfl, by rw [lengthField_split (by omega)]; omega, rfl⟩

theorem decodeTail_of_untyped {tail : List Byte} (h : tailIsTyped tail = false) :
    decodeTail tail = genericOfTail tail := by
  cases tail with
  | nil => rfl
  | cons t r => exact decodeTail_generic h

theorem decodeTail_transmitRequestTail (id : Byte) (addr : Addr) (rest : List Byte) :
    decodeTail (transmitRequestTail id addr rest) = .frameTransmitRequest id addr rest := by
  have hjoin : decodeTail (transmitRequestTail id addr rest) = .frameTransmitRequest id
      (joinAddr (addr.extractLsb' 56 8) (addr.extractLsb' 48 8) (addr.extractLsb' 40 8) (addr.extractLsb' 32 8)
        (addr.extractLsb' 24 8) (addr.extractLsb' 16 8) (addr.extractLsb' 8 8) (addr.extractLsb' 0 8)) rest := rfl
  rw [hjoin, joinAddr_addrBytes]

/-- The bytes a frame row lays out are in the pattern of that row and of no other (R73, R75 to R77). -/
theorem decodeTail_frameTail {i : Instr} (hw : i.wellFormed = true) (hf : isFrame i = true) :
    decodeTail (frameTail i) = i := by
  cases i with
  | frameGeneric body ck =>
    obtain ⟨-, huntyped⟩ := Bool.and_eq_true_iff.mp hw
    rw [Bool.not_eq_true'] at huntyped
    exact (decodeTail_of_untyped huntyped).trans (genericOfTail_append body ck)
  | frameTransmitRequest id addr rest => exact decodeTail_transmitRequestTail id addr rest
  | frameAtCommand | frameAtResponse | frameModemStatus | frameTransmitStatus | frameReceivePacket => rfl
  | _ => exact absurd hf Bool.false_ne_true

theorem decode_encode_frame {i : Instr} (hw : i.wellFormed = true) (hf : isFrame i = true) :
    decode (encode i) = .ok i := by
  obtain ⟨hpos, hle⟩ := length_frameTail hw hf
  rw [encode_frame hf, decode_wireBytes hpos hle, decodeTail_frameTail hw hf]

/-- `rx_valid` is RXW[8] and `rx_data` RXW[7:0] (R81). -/
theorem decodeRxw_append (v : BitVec 1) (b : Byte) :
    decodeRxw (v ++ b) = if v = 1#1 then .addByte b else .rxNop := by
  rw [decodeRxw, extractLsb'_append_high, extractLsb'_append_low]

/-- `rxrd_buf` and `rxrd_idx` are read back from the word they are joined to (R84). -/
theorem decodeRxrd_append (k : BufId) (j : Half) : decodeRxrd (bufBit k ++ j) = .rxRead k j := by
  rw [decodeRxrd, extractLsb'_append_high, extractLsb'_append_low, bufOfBit_bufBit]

/-- A payload that `bld_plen` can count is read back from the bus (R82). -/
theorem payloadOfBus_encoded {payload : List Byte} (h : payload.length ≤ maxLength) :
    payloadOfBus (BitVec.ofNat 16 payload.length).toNat (busOfPayload payload) = payload := by
  rw [BitVec.toNat_ofNat, Nat.mod_eq_of_lt (Nat.lt_succ_of_le h), payloadOfBus_busOfPayload]

theorem decodeBld_cmd (addr : Addr) (plen : Half) (payload : Nat) :
    decodeBld 0b01#2 addr plen payload = .buildCmd (payloadOfBus plen.toNat payload) := rfl

theorem decodeBld_data (addr : Addr) (plen : Half) (payload : Nat) :
    decodeBld 0b10#2 addr plen payload = .buildData addr (payloadOfBus plen.toNat payload) := rfl

/-- Settles O53: each port reads the fields of its word back, and a frame row is read back from its bytes. -/
theorem decodeEncodeRoundTrip : Obligations.DecodeEncodeRoundTrip := by
  intro i hw
  cases i with
  | reset | rxNop | bldNop | bldReserved | txRead | txLen | errorCount => rfl
  | addByte b => rw [encode, decode, decodeRxw_append, if_pos rfl]
  | buildCmd payload => rw [encode, decode, decodeBld_cmd, payloadOfBus_encoded (of_decide_eq_true hw)]
  | buildData addr payload => rw [encode, decode, decodeBld_data, payloadOfBus_encoded (of_decide_eq_true hw)]
  | rxRead k j => rw [encode, decode, decodeRxrd_append]
  | frameGeneric body ck => exact decode_encode_frame hw (frameGeneric_isFrame body ck)
  | frameAtCommand | frameTransmitRequest | frameAtResponse | frameModemStatus | frameTransmitStatus
  | frameReceivePacket => exact decode_encode_frame hw rfl

/-- Any eight bytes are those of an address (20_memory.md R52). -/
theorem exists_addrBytes {bs : List Byte} (h : bs.length = 8) : ∃ addr, addrBytes addr = bs := by
  match bs, h with
  | [b0, b1, b2, b3, b4, b5, b6, b7], _ => exact ⟨_, addrBytes_joinAddr b0 b1 b2 b3 b4 b5 b6 b7⟩

/-- The bytes after a transmit request's type, where the four fixed ones stand at their place (R76). -/
theorem exists_transmitRequest {r : List Byte}
    (h : (r.drop 9).take 4 = [Config.rsvdHi, Config.rsvdLo, Config.hopLimit, Config.txOptions]) :
    ∃ id addr rest, transmitRequestTail id addr rest = Config.tTxRequest :: r := by
  obtain ⟨id, r, rfl⟩ := List.exists_cons_of_ne_nil (l := r) (by rintro rfl; simp at h)
  rw [List.drop_succ_cons] at h
  have hlen : (r.take 8).length = 8 := by
    have := congrArg List.length h
    simp only [List.length_take, List.length_drop, List.length_cons, List.length_nil] at this ⊢
    omega
  obtain ⟨addr, haddr⟩ := exists_addrBytes hlen
  refine ⟨id, addr, (r.drop 8).drop 4, ?_⟩
  have hfixed := List.take_append_drop 4 (r.drop 8)
  rw [h] at hfixed
  rw [transmitRequestTail, haddr]
  have hrest := List.take_append_drop 8 r
  rw [← hfixed] at hrest
  exact congrArg (fun r => Config.tTxRequest :: id :: r) hrest

/-- Bytes in the pattern of a typed row are the frame of an operation of that row (R73). -/
theorem exists_typedRow {tail : List Byte} (htyped : tailIsTyped tail = true) (hle : tail.length ≤ 65536) :
    ∃ i, Instr.wellFormed i = true ∧ isFrame i = true ∧ frameTail i = tail := by
  cases tail with
  | nil => exact absurd htyped Bool.false_ne_true
  | cons t r =>
    have hr : r.length ≤ maxLength := Nat.le_of_succ_le_succ hle
    simp only [tailIsTyped, Bool.or_eq_true, Bool.and_eq_true, beq_iff_eq] at htyped
    obtain ((((rfl | rfl) | rfl) | rfl) | ⟨rfl, hne⟩) | ⟨rfl, hfixed⟩ := htyped
    · exact ⟨.frameAtResponse r, decide_eq_true hr, rfl, rfl⟩
    · exact ⟨.frameModemStatus r, decide_eq_true hr, rfl, rfl⟩
    · exact ⟨.frameTransmitStatus r, decide_eq_true hr, rfl, rfl⟩
    · exact ⟨.frameReceivePacket r, decide_eq_true hr, rfl, rfl⟩
    · obtain ⟨id, rest, rfl⟩ := List.exists_cons_of_ne_nil (l := r) (by rintro rfl; exact absurd hne (by decide))
      exact ⟨.frameAtCommand id rest, decide_eq_true hr, rfl, rfl⟩
    · obtain ⟨id, addr, rest, heq⟩ := exists_transmitRequest hfixed
      refine ⟨.frameTransmitRequest id addr rest, decide_eq_true ?_, rfl, heq⟩
      have := congrArg List.length heq
      simp only [transmitRequestTail, List.length_cons, List.length_append, length_addrBytes] at this
      omega

/-- Every nonempty byte sequence that the length field can count is the frame of a well-formed row: of a typed row, or
of the generic one where no typed row has the pattern (R71). -/
theorem exists_frameTail_eq {tail : List Byte} (hpos : 1 ≤ tail.length) (hle : tail.length ≤ 65536) :
    ∃ i, Instr.wellFormed i = true ∧ isFrame i = true ∧ frameTail i = tail := by
  cases htyped : tailIsTyped tail with
  | true => exact exists_typedRow htyped hle
  | false =>
    obtain ⟨body, ck, rfl⟩ := (List.eq_nil_or_concat' tail).resolve_left (List.ne_nil_of_length_pos hpos)
    rw [List.length_append, List.length_singleton] at hle
    refine ⟨.frameGeneric body ck, ?_, frameGeneric_isFrame body ck, rfl⟩
    rw [Instr.wellFormed, htyped, decide_eq_true (Nat.le_of_succ_le_succ hle)]
    rfl

/-- Settles O54: the bytes after the header are the frame of some row, and decoding gives back just that row. -/
theorem encodeDecodedFrame : Obligations.EncodeDecodedFrame := by
  intro bytes i h
  obtain ⟨hi, lo, tail, rfl, hlen, rfl⟩ := decodeWire_ok.mp h
  have hle : tail.length ≤ 65536 := by
    have := hi.isLt
    have := lo.isLt
    rw [hlen, lengthField]
    omega
  obtain ⟨i, hw, hf, rfl⟩ := exists_frameTail_eq (by omega) hle
  rw [decodeTail_frameTail hw hf]
  exact ⟨by rw [encode_frame hf, wireBytes_of_length hlen], hw, hf⟩

/-- Settles O55: `decodeWire_ok` with the header's three bytes counted in. -/
theorem wireDecodesExactlyWholeFrames : Obligations.WireDecodesExactlyWholeFrames := by
  intro bytes
  constructor
  · rintro ⟨i, h⟩
    obtain ⟨hi, lo, tail, rfl, hlen, -⟩ := decodeWire_ok.mp h
    exact ⟨hi, lo, tail, rfl, by simp only [List.length_cons, hlen, lengthField]⟩
  · rintro ⟨hi, lo, tail, rfl, hlen⟩
    refine ⟨decodeTail tail, decodeWire_ok.mpr ⟨hi, lo, tail, rfl, ?_, rfl⟩⟩
    simp only [List.length_cons] at hlen
    rw [lengthField]
    omega

/-- Settles O24: every row is laid out, executed and encoded by its bytes alone. -/
theorem frameRowsFeedTheirBytes : Obligations.FrameRowsFeedTheirBytes :=
  fun _ s hf => ⟨exec_frame hf s, encode_frame hf⟩

end Sys2Proof.Machine
end

section
/-! The words at the ports (30_encoding.md R81 to R89): the result words, the fields a request ignores, and the address
that a build replaces. -/

namespace Sys2Proof.Machine

/-- `RXW` enters through `rx_valid`, and through `rx_data` where `rx_valid` is 1 (R81, R89). -/
theorem decodeRxw_congr {v w : BitVec 9} (hvalid : v.extractLsb' 8 1 = w.extractLsb' 8 1)
    (hdata : v.extractLsb' 8 1 = 1#1 → v = w) : decodeRxw v = decodeRxw w := by
  by_cases h : v.extractLsb' 8 1 = 1#1
  · rw [hdata h]
  · rw [decodeRxw, decodeRxw, if_neg h, if_neg (hvalid ▸ h)]

/-- Two buses that agree on the first `n` bytes carry the same payload of `n` bytes (R82). -/
theorem payloadOfBus_congr {n a b : Nat} (h : a % 256 ^ n = b % 256 ^ n) : payloadOfBus n a = payloadOfBus n b := by
  rw [← payloadOfBus_mod, h, payloadOfBus_mod]

/-- The builder's fields enter only where `bld_op` asks for them (R82, R89). -/
theorem decodeBld_congr {op : BitVec 2} {addr addr' : Addr} {plen plen' : Half} {payload payload' : Nat}
    (haddr : op = 0b10#2 → addr = addr')
    (hpayload : op = 0b01#2 ∨ op = 0b10#2 →
      plen = plen' ∧ payload % 256 ^ plen.toNat = payload' % 256 ^ plen.toNat) :
    decodeBld op addr plen payload = decodeBld op addr' plen' payload' := by
  unfold decodeBld
  split_ifs with hnop hcmd hdata
  · rfl
  · obtain ⟨rfl, hbus⟩ := hpayload (.inl hcmd)
    rw [payloadOfBus_congr hbus]
  · obtain ⟨rfl, hbus⟩ := hpayload (.inr hdata)
    rw [payloadOfBus_congr hbus, haddr hdata]
  · rfl

/-- The read ports' samples depend on the read indexes alone (R84). -/
theorem sampledState_congr {p q : Pins} (hrx : p.rxrd = q.rxrd) (htx : p.txrd = q.txrd) (s : State) :
    sampledState p s = sampledState q s := by
  rw [sampledState, hrx, htx, sampledState]

/-- Settles O52: at `rst` = 1 only the read ports are used; otherwise both request words decode to the same
operations. -/
theorem ignoredFieldsDoNotMatter : Obligations.IgnoredFieldsDoNotMatter := by
  intro p q s hrst hrx htx hused
  have hsampled := sampledState_congr hrx htx s
  cases hp : p.rst with
  | true => rw [edge_rst hp, edge_rst (hrst.symm.trans hp), hsampled]
  | false =>
    obtain ⟨hvalid, hdata, hop, haddr, hpayload⟩ := hused hp
    rw [edge_request hp, edge_request (hrst.symm.trans hp), hsampled, decodeRxw_congr hvalid hdata,
      decodeBld_congr haddr hpayload, hop]

/-- Settles O39: the frame of a build holds the address only after the replacement. -/
theorem addressZeroIsBroadcast : Obligations.AddressZeroIsBroadcast := by
  refine ⟨fun payload s => ?_, fun a ha => if_neg ha, fun a k hk => ?_⟩
  · have hdest : destAddr 0#64 = destAddr 0x000000000000FFFF#64 := by decide
    simp only [exec_buildData, dataFrame, hdest]
  · interval_cases k <;> rfl

/-- The fields of the word for a handle (R81). -/
theorem rxrWord_some (h : Handle) : (rxrWord (some h)).extractLsb' 17 1 = 1#1 ∧
    (rxrWord (some h)).extractLsb' 16 1 = bufBit h.buf ∧ (rxrWord (some h)).extractLsb' 0 16 = h.len := by
  refine ⟨?_, ?_, extractLsb'_append_low _ _⟩
  · rw [rxrWord, BitVec.extractLsb'_append_eq_of_le (by decide)]
    exact extractLsb'_append_high 1#1 (bufBit h.buf)
  · rw [rxrWord, BitVec.extractLsb'_append_eq_of_le (by decide)]
    exact extractLsb'_append_low 1#1 (bufBit h.buf)

/-- Settles O45: the fields of a handle's word are the parts it is joined from. -/
theorem resultWordsAtPorts : Obligations.ResultWordsAtPorts :=
  ⟨rfl, rxrWord_some, rfl, rfl, rfl⟩

/-- Settles O56: each word is a closed term of the decoder. -/
theorem sampleWordsDecode : Obligations.SampleWordsDecode := by
  unfold Obligations.SampleWordsDecode
  decide

end Sys2Proof.Machine
end

section
/-! A step against the operations its words decode to (30_encoding.md R85, R91). -/

namespace Sys2Proof.Machine

/-- Settles O46: `edge` samples the read ports one after another and then runs the requests. -/
theorem stepRunsDecodedRequests : Obligations.StepRunsDecodedRequests := by
  intro s p rest r b rd hin hrd hr hb
  cases hrd
  cases hr
  cases hb
  rw [step_edge hin, edge, sampleReads]
  simp only [andThen_assoc]
  rfl

/-- Whether or not bytes are one whole frame, presenting them is their FEED (R91). -/
theorem runBytes_eq_feed (bytes : List Byte) (s : State) : runBytes bytes s = feed bytes s := by
  cases hd : decode (.wire bytes) with
  | error r => exact runBytes_error hd s
  | ok i =>
    obtain ⟨hencode, -, hf⟩ := encodeDecodedFrame bytes i hd
    rw [encode_frame hf, PortWord.wire.injEq] at hencode
    rw [runBytes_ok hd, exec_frame hf, hencode]

/-- Settles O47: a frame row that bytes decode to is their FEED as well (`runBytes_eq_feed`). -/
theorem stepRunsDecodedFrame : Obligations.StepRunsDecodedFrame := by
  intro s bytes rest hin
  exact ⟨fun i hd => (step_feed hin).trans (runBytes_ok hd _), (step_feed hin).trans (runBytes_eq_feed bytes _)⟩

end Sys2Proof.Machine
end

section
/-! An operation does not look at the host's queue nor at the results sampled before (log entries 4 and 5), so it does the
same inside an edge as on its own: what one edge for one operation leaves, and a FEED as one edge a byte (R91). -/

namespace Sys2Proof.Machine

/-- The same block with another queue and other results sampled. -/
def State.withPorts (s : State) (xs : List Input) (o : Outputs) : State := { s with inputs := xs, out := o }

theorem sameBlock_withPorts (s : State) (xs : List Input) (o : Outputs) : sameBlock s (s.withPorts xs o) :=
  ⟨rfl, rfl, rfl, rfl, rfl, rfl, rfl, rfl, rfl, rfl⟩

/-- Two states of one block differ in the queue and the results alone. -/
theorem eq_withPorts {s u : State} (h : sameBlock s u) : u = s.withPorts u.inputs u.out := by
  obtain ⟨⟩ := s
  obtain ⟨⟩ := u
  obtain ⟨h1, h2, h3, h4, h5, h6, h7, h8, h9, h10⟩ := h
  simp only at h1 h2 h3 h4 h5 h6 h7 h8 h9 h10
  subst h1 h2 h3 h4 h5 h6 h7 h8 h9 h10
  rfl

/-- A state of the same block is a graft with other receiver's results. -/
theorem withPorts_eq_graft (s : State) (xs : List Input) (o : Outputs) :
    s.withPorts xs o = (graft (s.withPorts xs o) s).setRx o.rx := rfl

/-- What is grafted onto a state whose builder's part is that of `s` is the queue and the results. -/
theorem graft_withPorts {s t : State} (htx : t.txBuf = s.txBuf) (hlen : t.txLen = s.txLen) (hseq : t.seqLast = s.seqLast)
    (xs : List Input) (o : Outputs) : graft (s.withPorts xs o) t = t.withPorts xs { o with rx := t.out.rx } := by
  unfold graft State.withPorts
  rw [htx, hlen, hseq]

theorem execAddByte_withPorts {b : Byte} {s t : State} (h : execAddByte b s = .next t) (xs : List Input) (o : Outputs) :
    execAddByte b (s.withPorts xs o) = .next (t.withPorts xs { o with rx := t.out.rx }) := by
  obtain ⟨-, -, htx, hlen, hseq, -⟩ := execAddByte_frame h
  rw [withPorts_eq_graft, execAddByte_setRx, execAddByte_graft, h, andThen_next, graft_withPorts htx hlen hseq]

theorem feed_withPorts {bs : List Byte} {s t : State} (h : feed bs s = .next t) (xs : List Input) (o : Outputs) :
    feed bs (s.withPorts xs o) = .next (t.withPorts xs { o with rx := t.out.rx }) := by
  obtain ⟨-, -, htx, hlen, hseq, -⟩ := feed_frame h
  rw [withPorts_eq_graft, feed_setRx, feed_graft, h, andThen_next, graft_withPorts htx hlen hseq]

theorem exec_build_withPorts {i : Instr} (hb : isBuild i = true) {s t : State} (h : exec i s = .next t)
    (xs : List Input) (o : Outputs) :
    exec i (s.withPorts xs o) = .next (t.withPorts xs { o with bld := t.out.bld }) := by
  rcases exec_build_cases hb s with ⟨hover, e⟩ | ⟨hfit, e⟩
  · cases e.symm.trans h
    rw [exec_build hb, build_over (s := s.withPorts xs o) hover]
    rfl
  · cases e.symm.trans h
    rw [exec_build hb, build_fits (s := s.withPorts xs o) hfit]
    rfl

/-- The results an edge has when its read ports are sampled and its requests have not run. -/
def readSamples (p : Pins) (s : State) : Outputs := (sampledState p s).out

theorem sampledState_eq_withPorts (p : Pins) (s : State) :
    sampledState p s = s.withPorts s.inputs (readSamples p s) := rfl

/-- An edge that asks ADD_BYTE of the receiver and nothing of the builder (R90). -/
theorem edge_addByte {p : Pins} {b : Byte} (hrst : p.rst = false) (hrx : p.rxw = 1#1 ++ b) (hop : p.bldOp = 0b00#2)
    {s t : State} (h : execAddByte b s = .next t) :
    edge p s = .next (t.withPorts s.inputs { readSamples p s with rx := t.out.rx }) := by
  have hbyte : exec (decodeRxw p.rxw) (sampledState p s) =
      .next (t.withPorts s.inputs { readSamples p s with rx := t.out.rx }) := by
    rw [hrx, decodeRxw_append, if_pos rfl, sampledState_eq_withPorts]
    exact execAddByte_withPorts h _ _
  rw [edge_request hrst, hbyte, hop]
  rfl

/-- An edge that asks a build of the builder and nothing of the receiver (R90). -/
theorem edge_build {p : Pins} {i : Instr} (hrst : p.rst = false) (hrx : p.rxw = 0#9)
    (hbld : decodeBld p.bldOp p.bldAddr p.bldPlen p.bldPayload = i) (hb : isBuild i = true)
    {s t : State} (h : exec i s = .next t) :
    edge p s = .next (t.withPorts s.inputs { readSamples p s with rx := [none], bld := t.out.bld }) := by
  rw [edge_request hrst, hrx, hbld]
  exact exec_build_withPorts hb h s.inputs { readSamples p s with rx := [none] }

/-- Settles O29, by induction on the bytes: after each edge the block is as after the byte, and the queue and the results
that the edge leaves are looked at by no byte to come. -/
theorem feedIsOneByteAnEdge : Obligations.FeedIsOneByteAnEdge := by
  intro bytes
  induction bytes with
  | nil =>
    intro s t h
    cases h
    exact ⟨s, rfl, sameBlock_withPorts _ _ _, rfl⟩
  | cons b bs ih =>
    intro s t h
    obtain ⟨s1, v, hone, hrest, rfl⟩ := feed_cons_next.mp h
    have hedge := edge_addByte (p := { idlePins with rxw := 1#1 ++ b }) rfl rfl rfl hone
    obtain ⟨u, hrun, hblock, hinputs⟩ := ih _ _ (feed_withPorts hrest _ _)
    refine ⟨u, ?_, hblock, hinputs⟩
    show andThen (edge { idlePins with rxw := 1#1 ++ b } s) (runTrace (feedLines bs)) = _
    rw [hedge, andThen_next, hrun]

/-- An edge with the reserved request is one that asks nothing of the builder (41_builder.md R125; log entry 8). -/
theorem edge_reserved {p : Pins} (hrst : p.rst = false) (hrx : p.rxw = 0#9) (hop : p.bldOp = 0b11#2) (s : State) :
    edge p s = .next (((sampledState p s).setRx [none]).setBld .idle) := by
  rw [edge_request hrst, hrx, hop]
  rfl

/-- Such an edge leaves the block alone (R89). -/
theorem sameBlock_quiet (p : Pins) (s : State) : sameBlock s (((sampledState p s).setRx [none]).setBld .idle) :=
  sameBlock_withPorts s s.inputs { readSamples p s with rx := [none] }

/-- The word of RX_READ samples the byte that RX_READ reads (R84). -/
theorem readSamples_rxRead (k : BufId) (j : Half) (s : State) :
    (readSamples { idlePins with rxrd := bufBit k ++ j } s).rxrdData = some (portRead (rxSpace k) j s) := by
  simp only [readSamples, sampledState, extractLsb'_append_high, extractLsb'_append_low, bufOfBit_bufBit]

/-- Two states have the same result of an operation at the operation's own port (R81, R83, R84). -/
def sameResult (i : Instr) (t u : State) : Prop :=
  match i with
  | .reset => u.out.rx = t.out.rx ∧ u.out.bld = t.out.bld
  | .bldNop | .buildCmd _ | .buildData _ _ | .bldReserved => u.out.bld = t.out.bld
  | .rxRead _ _ => u.out.rxrdData = t.out.rxrdData
  | .txRead _ => u.out.txrdData = t.out.txrdData
  | .txLen => u.out.txLenO = t.out.txLenO
  | .errorCount => u.out.errCountO = t.out.errCountO
  | .addByte _ | .rxNop | .frameGeneric _ _ | .frameAtCommand _ _ | .frameTransmitRequest _ _ _ | .frameAtResponse _
  | .frameModemStatus _ | .frameTransmitStatus _ | .frameReceivePacket _ => u.out.rx = t.out.rx

theorem sameResult_frame {i : Instr} (hf : isFrame i = true) {t u : State} :
    sameResult i t u ↔ u.out.rx = t.out.rx := by
  cases i with
  | frameGeneric | frameAtCommand | frameTransmitRequest | frameAtResponse | frameModemStatus | frameTransmitStatus
  | frameReceivePacket => rfl
  | _ => exact absurd hf Bool.false_ne_true

theorem sameResult_build {i : Instr} (hb : isBuild i = true) {t u : State} :
    sameResult i t u ↔ u.out.bld = t.out.bld := by
  cases i with
  | buildCmd | buildData => rfl
  | _ => exact absurd hb Bool.false_ne_true

/-- A frame row at the head of the queue: its bytes are fed (R91). -/
theorem step_frame {i : Instr} (hf : isFrame i = true) {s t : State} {rest : List Input}
    (hin : s.inputs = inputOfWord (encode i) :: rest) (h : exec i (s.setInputs rest) = .next t) :
    step s = .next (t.withPorts rest { Outputs.quiet with rx := t.out.rx }) := by
  rw [encode_frame hf] at hin
  rw [exec_frame hf] at h
  rw [step_feed hin, runBytes_eq_feed]
  exact feed_withPorts h rest Outputs.quiet

/-- The word of a build at the head of the queue. -/
theorem step_build {i : Instr} {op : BitVec 2} {addr : Addr} {plen : Half} {payload : Nat}
    (hdecode : decode (.bld op addr plen payload) = .ok i) (hb : isBuild i = true) {s t : State} {rest : List Input}
    (hin : s.inputs = inputOfWord (.bld op addr plen payload) :: rest) (h : exec i (s.setInputs rest) = .next t) :
    ∃ u, step s = .next u ∧ sameBlock t u ∧ u.inputs = rest ∧ sameResult i t u := by
  have hbld : decodeBld op addr plen payload = i := Except.ok.inj hdecode
  have hstep := step_edge hin
  rw [edge_build rfl rfl hbld hb h] at hstep
  exact ⟨_, hstep, sameBlock_withPorts _ _ _, rfl, (sameResult_build hb).mpr rfl⟩

/-- One case a port: bytes are fed, ADD_BYTE and the builds run beside an idle port, and the reads and no-operations run
at an edge that only samples the read ports. -/
theorem step_encoded {i : Instr} (hw : i.wellFormed = true) {s t : State} {rest : List Input}
    (hin : s.inputs = inputOfWord (encode i) :: rest) (h : exec i (s.setInputs rest) = .next t) :
    ∃ u, step s = .next u ∧ sameBlock t u ∧ u.inputs = rest ∧ sameResult i t u := by
  by_cases hf : isFrame i = true
  · exact ⟨_, step_frame hf hin h, sameBlock_withPorts _ _ _, rfl, (sameResult_frame hf).mpr rfl⟩
  cases i with
  | reset =>
    cases h
    exact ⟨_, (step_edge hin).trans (edge_rst rfl _), sameBlock_withPorts _ _ _, rfl, rfl, rfl⟩
  | addByte b =>
    exact ⟨_, (step_edge hin).trans (edge_addByte rfl rfl rfl h), sameBlock_withPorts _ _ _, rfl, rfl⟩
  | buildCmd payload => exact step_build (decodeEncodeRoundTrip _ hw) rfl hin h
  | buildData addr payload => exact step_build (decodeEncodeRoundTrip _ hw) rfl hin h
  | rxRead k j =>
    cases h
    exact ⟨_, (step_edge hin).trans (edge_quiet rfl rfl rfl _), sameBlock_quiet _ _, rfl, readSamples_rxRead k j _⟩
  | bldReserved =>
    cases h
    exact ⟨_, (step_edge hin).trans (edge_reserved rfl rfl rfl _), sameBlock_quiet _ _, rfl, rfl⟩
  | rxNop | bldNop | txRead | txLen | errorCount =>
    cases h
    exact ⟨_, (step_edge hin).trans (edge_quiet rfl rfl rfl _), sameBlock_quiet _ _, rfl, rfl⟩
  | frameGeneric body ck => exact absurd (frameGeneric_isFrame body ck) hf
  | frameAtCommand | frameTransmitRequest | frameAtResponse | frameModemStatus | frameTransmitStatus
  | frameReceivePacket => exact absurd rfl hf

/-- Settles O48: `step_encoded`, with the result read at each port. -/
theorem stepRunsEncodedOperation : Obligations.StepRunsEncodedOperation := by
  intro i s rest t hw hin h
  obtain ⟨u, hstep, hblock, hinputs, hresult⟩ := step_encoded hw hin h
  refine ⟨u, hstep, hblock, hinputs, ?rx, ?bld, ?rxrd, ?txrd, ?txLen, ?errCount⟩
  case rx =>
    rintro (hf | ⟨b, rfl⟩ | rfl | rfl)
    exacts [(sameResult_frame hf).mp hresult, hresult, hresult, hresult.1]
  case bld =>
    rintro (hb | rfl | rfl | rfl)
    exacts [(sameResult_build hb).mp hresult, hresult, hresult, hresult.2]
  case rxrd => rintro k j rfl; exact hresult
  case txrd => rintro j rfl; exact hresult
  case txLen => rintro rfl; exact hresult
  case errCount => rintro rfl; exact hresult

end Sys2Proof.Machine
end

section
/-! What ADD_BYTE answers in each case of R100: an error's recovery, a byte that completes nothing, or the last byte of
a frame; then the transition table that these cases make up (40_receiver.md R101 to R107). -/

namespace Sys2Proof.Machine

/-- Settles O17: RX_NOP writes the receiver's result alone. -/
theorem rxNopDoesNothing : Obligations.RxNopDoesNothing := fun _ => rfl

/-- Settles O8: the recovery of R175, field by field. -/
theorem addByteOverflow : Obligations.AddByteOverflow := fun _ _ hfull => execAddByte_overflow hfull

/-- In `Idle` the recovery of R175 leaves `rx_len` as it is. -/
theorem raiseError_idle (e : RxError) {s : State} (h0 : s.rxLen = 0#16) :
    raiseError e s = ({ s with errCount := satInc s.errCount } : State).setRx [none] := by
  rw [raiseError, ← h0]

/-- A stray byte in `Idle` changes the counter and the result alone (40_receiver.md R102). -/
theorem execAddByte_stray {b : Byte} {s : State} (hcap : Config.legalCap s.cap) (h0 : s.rxLen = 0#16)
    (hb : b ≠ Config.start) :
    execAddByte b s = .next (({ s with errCount := satInc s.errCount } : State).setRx [none]) := by
  have hlow := hcap.1
  rw [execAddByte_desync (by rw [h0, BitVec.toNat_ofNat]; omega) h0 hb, raiseError_idle _ h0]

/-- Settles O9: `execAddByte_stray`, with the saturating increment written out. -/
theorem addByteDesync : Obligations.AddByteDesync := fun _ _ hcap h0 hb => execAddByte_stray hcap h0 hb

/-- ADD_BYTE answers a next state wherever `rx_len` is within CAP (R22). -/
theorem execAddByte_completes (b : Byte) {s : State} (hle : s.rxLen.toNat ≤ s.cap) : ∃ t, execAddByte b s = .next t := by
  rcases addByteCase b s with hfull | ⟨hne, h0, hb⟩ | ⟨hne, hacc⟩
  · exact ⟨_, execAddByte_overflow hfull⟩
  · exact ⟨_, execAddByte_desync hne h0 hb⟩
  · exact ⟨_, execAddByte_store (lt_of_le_of_ne hle hne) hacc⟩

/-- Beyond `Idle` no byte is stray. -/
theorem accepted_of_pos {b : Byte} {s : State} (hpos : 1 ≤ s.rxLen.toNat) : ¬ (s.rxLen = 0#16 ∧ b ≠ Config.start) := by
  rintro ⟨h0, -⟩
  rw [h0] at hpos
  exact absurd hpos (by decide)

theorem rxState_idle {s : State} (h0 : s.rxLen = 0#16) : rxState s = .idle :=
  (rxState_facts s).1.mpr (by rw [h0, BitVec.toNat_ofNat])

/-- `rx_len` after the store, as the number of bytes it counts. -/
theorem storedState_rxLen_eq (b : Byte) (s : State) : (storedState b s).rxLen = BitVec.ofNat 16 (s.rxLen.toNat + 1) := by
  rw [storedState_rxLen, BitVec.ofNat_add, BitVec.ofNat_toNat, BitVec.setWidth_eq]

/-- The byte stands at index `n` of the buffer active in `s`, and no other byte has changed (R103). -/
def StoredAt (b : Byte) (n : Nat) (s t : State) : Prop :=
  memRead (activeSpace s) n t = b ∧ ∀ sp i, (sp ≠ activeSpace s ∨ i ≠ n) → memRead sp i t = memRead sp i s

/-- Whatever the tests after the store find, the byte is stored and no other byte changes. -/
theorem storedAt_of_accepted {b : Byte} {s t : State} (h : execAddByte b s = .next t) (hlt : s.rxLen.toNat < s.cap)
    (hacc : ¬ (s.rxLen = 0#16 ∧ b ≠ Config.start)) : StoredAt b s.rxLen.toNat s t := by
  refine ⟨?_, fun sp i hne => execAddByte_memRead_ne h hne⟩
  cases (execAddByte_store hlt hacc).symm.trans h
  rw [afterStore_memRead, memRead_storedState_at]

/-- The rows whose byte is rejected: `Desync` in `Idle` and `Overflow` with a full buffer (R101, R102). -/
theorem execAddByte_rejected {b : Byte} {s t : State} (h : execAddByte b s = .next t)
    (hrej : s.rxLen.toNat = s.cap ∨ (s.rxLen = 0#16 ∧ b ≠ Config.start)) :
    (∀ sp, t.mem sp = s.mem sp) ∧ rxState t = .idle ∧ t.rxLen.toNat = 0 ∧ t.rxActive = s.rxActive ∧
      t.errCount = satInc s.errCount ∧ t.out.rx = [none] := by
  have hraise : ∃ e, t = raiseError e s := by
    rcases execAddByte_cases h with ⟨-, ht⟩ | ⟨-, -, -, ht⟩ | ⟨hlt, hacc, -⟩
    · exact ⟨_, ht⟩
    · exact ⟨_, ht⟩
    · exact absurd (hrej.resolve_left hlt.ne) hacc
  obtain ⟨e, rfl⟩ := hraise
  exact ⟨fun sp => raiseError_mem e s sp, rxState_idle rfl, rfl, rfl, rfl, rfl⟩

/-- The rows whose byte is stored at index `n` and completes no frame (R103, R104). -/
theorem execAddByte_stored {b : Byte} {n : Nat} {s t : State} (hcap : s.cap ≤ 65535) (h : execAddByte b s = .next t)
    (hn : s.rxLen.toNat = n) (hlt : n < s.cap) (hacc : ¬ (s.rxLen = 0#16 ∧ b ≠ Config.start))
    (hopen : n < 3 ∨ n + 1 ≠ frameN s + 4) :
    StoredAt b n s t ∧ t.rxLen.toNat = n + 1 ∧ t.rxActive = s.rxActive ∧ t.errCount = s.errCount ∧
      t.out.rx = [none] := by
  subst hn
  refine ⟨storedAt_of_accepted h hlt hacc, ?_⟩
  cases (execAddByte_open hcap hlt hacc hopen).symm.trans h
  exact ⟨rxLen_storedState b s (by omega), storedState_rxActive b s, storedState_errCount b s, rfl⟩

section lastByte
variable {b : Byte} {s t : State} (hcap : s.cap ≤ 65535) (h : execAddByte b s = .next t) (h3 : 3 ≤ s.rxLen.toNat)
  (hlt : s.rxLen.toNat < s.cap) (hN : s.rxLen.toNat + 1 = frameN s + 4)
include hcap h h3 hlt hN

/-- The row of a valid completion (R105). -/
theorem execAddByte_completed
    (hsum : chkSum (fun i => memRead (activeSpace s) i s) 3 (s.rxLen.toNat - 1) + b = 0xFF#8) :
    StoredAt b s.rxLen.toNat s t ∧ rxState t = .idle ∧ t.rxLen.toNat = 0 ∧ t.rxActive = otherBuf s.rxActive ∧
      t.errCount = s.errCount ∧ t.out.rx = [some { buf := s.rxActive, len := BitVec.ofNat 16 (frameN s + 4) }] := by
  refine ⟨storedAt_of_accepted h hlt (accepted_of_pos (by omega)), ?_⟩
  have hlast := execAddByte_last (b := b) hcap h3 hlt hN
  rw [if_pos hsum] at hlast
  cases hlast.symm.trans h
  refine ⟨rxState_idle rfl, rfl, ?_, storedState_errCount b s, ?_⟩
  · rw [completeFrameRx_rxActive, storedState_rxActive]
  · rw [completeFrameRx_out_rx, storedState_rxActive, storedState_rxLen_eq, hN]

/-- The row of a wrong checksum (R106). -/
theorem execAddByte_mismatched
    (hsum : chkSum (fun i => memRead (activeSpace s) i s) 3 (s.rxLen.toNat - 1) + b ≠ 0xFF#8) :
    StoredAt b s.rxLen.toNat s t ∧ rxState t = .idle ∧ t.rxLen.toNat = 0 ∧ t.rxActive = s.rxActive ∧
      t.errCount = satInc s.errCount ∧ t.out.rx = [none] := by
  refine ⟨storedAt_of_accepted h hlt (accepted_of_pos (by omega)), ?_⟩
  have hlast := execAddByte_last (b := b) hcap h3 hlt hN
  rw [if_neg hsum] at hlast
  cases hlast.symm.trans h
  refine ⟨rxState_idle rfl, rfl, storedState_rxActive b s, ?_, rfl⟩
  rw [raiseError_errCount, storedState_errCount]

end lastByte

/-- ADD_BYTE samples no output but the receiver's (R81). -/
theorem execAddByte_out {b : Byte} {s t : State} {r : List RxResult} (h : execAddByte b s = .next t)
    (hrx : t.out.rx = r) : t.out = { s.out with rx := r } := by
  obtain ⟨-, -, -, -, -, -, hout, -⟩ := execAddByte_frame h
  rw [← hrx]
  exact hout

/-- Settles O10: the rows of a byte that completes no frame (`execAddByte_stored`). -/
theorem addByteStores : Obligations.AddByteStores := by
  intro s b hcap hlt hstart hopen
  obtain ⟨t, h⟩ := execAddByte_completes b hlt.le
  obtain ⟨⟨hat, -⟩, hlen, hactive, herr, hrx⟩ :=
    execAddByte_stored hcap.2 h rfl hlt (fun ⟨h0, hb⟩ => hb (hstart h0)) hopen
  exact ⟨t, h, hlen, hat, hactive, herr, execAddByte_out h hrx⟩

/-- Settles O11: the row of a valid completion (`execAddByte_completed`). -/
theorem addByteCompletesFrame : Obligations.AddByteCompletesFrame := by
  intro s b hcap h3 hlt hN hsum
  obtain ⟨t, h⟩ := execAddByte_completes b hlt.le
  obtain ⟨⟨hat, -⟩, -, hlen, hactive, herr, hrx⟩ := execAddByte_completed hcap.2 h h3 hlt hN hsum
  exact ⟨t, h, BitVec.eq_of_toNat_eq hlen, hactive, hactive ▸ otherBuf_ne s.rxActive, herr, hat, execAddByte_out h hrx⟩

/-- Settles O12: the row of a wrong checksum (`execAddByte_mismatched`). -/
theorem addByteChecksumMismatch : Obligations.AddByteChecksumMismatch := by
  intro s b hcap h3 hlt hN hsum
  obtain ⟨t, h⟩ := execAddByte_completes b hlt.le
  obtain ⟨⟨hat, -⟩, -, hlen, hactive, herr, hrx⟩ := execAddByte_mismatched hcap.2 h h3 hlt hN hsum
  exact ⟨t, h, BitVec.eq_of_toNat_eq hlen, hactive, herr, hat, execAddByte_out h hrx⟩

/-- Settles O13: the first and the last row reject the byte, three rows complete the frame or end it, and in the rows
between them the state after is read off `rx_len` (`receiverStateAtBoundary`). -/
theorem addByteFollowsTransitionTable : Obligations.AddByteFollowsTransitionTable := by
  intro s b hI
  obtain ⟨t, h⟩ := execAddByte_completes b hI.rxLenLe
  have hle := hI.rxLenLe
  obtain ⟨hlow, hmax⟩ := hI.capLegal
  obtain ⟨hidle, hhi, hlo, hcollecting, hcomplete⟩ := receiverStateAtBoundary s hI
  have hI' := execAddByte_keeps_inv hI h
  obtain ⟨-, hhi', hlo', hcollecting', -⟩ := receiverStateAtBoundary t hI'
  refine ⟨t, h, ?exhaustive, fun hst hb => ?stray, fun hst hb => ?start, fun hst => ?headerHi, fun hst => ?headerLo,
    fun hst hlt hne => ?collect, fun hst hlt hN hsum => ?valid, fun hst hlt hN hsum => ?mismatch,
    fun hst hfull => ?overflow⟩
  case exhaustive =>
    cases hst : rxState s with
    | idle => exact .inl rfl
    | headerHi => exact .inr (.inl rfl)
    | headerLo => exact .inr (.inr (.inl rfl))
    | collecting => exact .inr (.inr (.inr ⟨rfl, hle.lt_or_eq⟩))
    | complete => exact absurd hst hcomplete
  case stray => exact execAddByte_rejected h (.inr ⟨BitVec.eq_of_toNat_eq (hidle.mp hst), hb⟩)
  case start =>
    obtain ⟨hstored, hlen, hregs⟩ :=
      execAddByte_stored hmax h (hidle.mp hst) (by omega) (fun hrej => hrej.2 hb) (.inl (by omega))
    exact ⟨hstored, hhi'.mpr hlen, hlen, hregs⟩
  case headerHi =>
    have hn := hhi.mp hst
    obtain ⟨hstored, hlen, hregs⟩ :=
      execAddByte_stored hmax h hn (by omega) (accepted_of_pos hn.ge) (.inl (by omega))
    exact ⟨hstored, hlo'.mpr hlen, hlen, hregs⟩
  case headerLo =>
    have hn := hlo.mp hst
    obtain ⟨hstored, hlen, hregs⟩ :=
      execAddByte_stored hmax h hn (by omega) (accepted_of_pos (by omega)) (.inl (by omega))
    exact ⟨hstored, hcollecting'.mpr ⟨hlen.ge, hI'.rxInProgress hlen.ge⟩, hlen, hregs⟩
  case collect =>
    obtain ⟨h3, -⟩ := hcollecting.mp hst
    obtain ⟨hstored, hlen, hregs⟩ := execAddByte_stored hmax h rfl hlt (accepted_of_pos (by omega)) (.inr hne)
    have h3' : 3 ≤ t.rxLen.toNat := by omega
    exact ⟨hstored, hcollecting'.mpr ⟨h3', hI'.rxInProgress h3'⟩, hlen, hregs⟩
  case valid => exact execAddByte_completed hmax h (hcollecting.mp hst).1 hlt hN hsum
  case mismatch => exact execAddByte_mismatched hmax h (hcollecting.mp hst).1 hlt hN hsum
  case overflow => exact execAddByte_rejected h (.inl hfull)

end Sys2Proof.Machine
end

section
/-! Every operation answers: ADD_BYTE faults only above CAP, which the invariant excludes, so a FEED never does, and no
other operation can. -/

namespace Sys2Proof.Machine

theorem feed_completes (bs : List Byte) : ∀ {s : State}, BlockInv s → ∃ t, feed bs s = .next t := by
  induction bs with
  | nil => intro s _; exact ⟨_, feed_nil s⟩
  | cons b bs ih =>
    intro s hI
    obtain ⟨s1, hone⟩ := execAddByte_completes b hI.rxLenLe
    obtain ⟨t, hrest⟩ := ih (execAddByte_keeps_inv hI hone)
    exact ⟨_, feed_cons_next.mpr ⟨s1, t, hone, hrest, rfl⟩⟩

theorem exec_completes (i : Instr) {s : State} (hI : BlockInv s) : ∃ t, exec i s = .next t := by
  cases instrShape i with
  | addByte b => exact execAddByte_completes b hI.rxLenLe
  | frame _ hf => rw [exec_frame hf]; exact feed_completes _ hI
  | build _ hb =>
    rcases exec_build_cases hb s with ⟨-, h⟩ | ⟨-, h⟩
    · exact ⟨_, h⟩
    · exact ⟨_, h⟩
  | bldQuiet _ hquiet => exact ⟨_, hquiet s⟩
  | reset | rxNop | rxRead | txRead | txLen | errorCount => exact ⟨_, rfl⟩

/-- Settles O5: every operation answers, and its answer meets the invariant (`exec_keeps_inv`). -/
theorem everyOperationCompletes : Obligations.EveryOperationCompletes := by
  intro i s hI
  obtain ⟨t, h⟩ := exec_completes i hI
  exact ⟨t, h, exec_keeps_inv hI h⟩

end Sys2Proof.Machine
end

section
/-! Whole runs of bytes through the receiver: stray bytes in `Idle` (40_receiver.md R102), the handles of consecutive
completions (R105), and whole frames, valid, bad or oversize (R79, R101, R105, R106). -/

namespace Sys2Proof.Machine

/-- Settles O19, by induction on the bytes: each one counts one and leaves the receiver in `Idle`
(`execAddByte_stray`). -/
theorem strayBytesCountOneEach : Obligations.StrayBytesCountOneEach := by
  intro bytes
  induction bytes with
  | nil =>
    intro s _ _ _
    have hmax := s.errCount.isLt
    refine ⟨_, feed_nil s, ?_, rfl, rfl, rfl, rfl, rfl, rfl, rfl, rfl, rfl, rfl, rfl⟩
    rw [setRx_errCount, List.length_nil]
    omega
  | cons b bs ih =>
    intro s hcap h0 hstray
    rw [List.forall_mem_cons] at hstray
    obtain ⟨hb, hbs⟩ := hstray
    obtain ⟨t, hrest, hcount, hrx, hblock⟩ :=
      ih (({ s with errCount := satInc s.errCount } : State).setRx [none]) hcap h0 hbs
    refine ⟨_, feed_cons_next.mpr ⟨_, t, execAddByte_stray hcap h0 hb, hrest, rfl⟩, ?_, ?_, hblock⟩
    · rw [setRx_errCount, hcount, setRx_errCount, satInc_toNat, List.length_cons]
      omega
    · rw [setRx_out_rx, hrx]
      rfl

/-- Settles O21, by induction on the bytes: a byte without a handle keeps the active buffer, and one with a handle names
it and toggles it (`execAddByte_rx`). -/
theorem completionsAlternateBuffers : Obligations.CompletionsAlternateBuffers := by
  intro bytes
  induction bytes with
  | nil => intro s t h; cases h; exact trivial
  | cons b bs ih =>
    intro s t h
    obtain ⟨s1, u, hone, hrest, rfl⟩ := feed_cons_next.mp h
    have hlater := ih s1 u hrest
    rcases execAddByte_rx hone with ⟨hrx, hactive⟩ | ⟨n, hrx, hactive, -⟩
    · rw [setRx_out_rx, hrx, ← hactive]
      exact hlater
    · rw [setRx_out_rx, hrx]
      rw [hactive] at hlater
      exact ⟨rfl, hlater⟩

@[simp] theorem length_wireBytes (tail : List Byte) : (wireBytes tail).length = tail.length + 3 := rfl

/-- Bytes stored from `Idle` on are counted from 0. -/
theorem StoredRun.rxLen_eq_length {bs : List Byte} {s t : State} (hrun : StoredRun bs s t) (h0 : s.rxLen = 0#16) :
    t.rxLen.toNat = bs.length := by
  rw [hrun.rxLen, h0, BitVec.toNat_ofNat, Nat.zero_mod, Nat.zero_add]

/-- The bytes stored from `Idle` on are those in the buffer from index 0 on. -/
theorem StoredRun.readBytes_eq {bs : List Byte} {s t : State} (hrun : StoredRun bs s t) (h0 : s.rxLen = 0#16) :
    readBytes (activeSpace s) bs.length t = bs := by
  refine Machine.readBytes_eq fun k hk => ?_
  have hbyte := hrun.bytes k hk
  rwa [h0, BitVec.toNat_ofNat, Nat.zero_mod, Nat.zero_add] at hbyte

/-- The sum that the last byte of a frame is tested with: that of the bytes stored from index 3 on (R78, R142). -/
theorem chkSum_storedRun {b0 b1 b2 : Byte} {pre : List Byte} {s t : State}
    (hrun : StoredRun (b0 :: b1 :: b2 :: pre) s t) (h0 : s.rxLen = 0#16) :
    chkSum (fun i => memRead (activeSpace t) i t) 3 (pre.length + 2) = sumBytes pre := by
  refine chkSum_eq_sumBytes pre _ _ _ (by omega) fun k hk => ?_
  have hbyte := hrun.bytes (3 + k) (by simp only [List.length_cons]; omega)
  rw [h0, BitVec.toNat_ofNat, Nat.zero_mod, Nat.zero_add, Nat.add_comm 3 k] at hbyte
  rw [hrun.activeSpace_eq, Nat.add_comm 3 k, hbyte]
  rfl

/-- The state that the last byte of a frame leaves where `u` has all its bytes stored (R105, R106). -/
def frameEnd (tail : List Byte) (u : State) : State :=
  if tailVerifies tail = true then completeFrameRx u else raiseError .checksumMismatch u

theorem frameEnd_valid {tail : List Byte} (hsum : tailVerifies tail = true) (u : State) :
    frameEnd tail u = completeFrameRx u := if_pos hsum

theorem frameEnd_bad {tail : List Byte} (hsum : tailVerifies tail = false) (u : State) :
    frameEnd tail u = raiseError .checksumMismatch u := if_neg (by rw [hsum]; exact Bool.false_ne_true)

@[simp] theorem frameEnd_setRx (tail : List Byte) (u : State) (r : List RxResult) :
    frameEnd tail (u.setRx r) = frameEnd tail u := if_congr Iff.rfl rfl rfl

@[simp] theorem memRead_frameEnd (tail : List Byte) (u : State) (sp : Space) (i : Nat) :
    memRead sp i (frameEnd tail u) = memRead sp i u := by
  cases hsum : tailVerifies tail with
  | true => rw [frameEnd_valid hsum, memRead_completeFrameRx]
  | false => rw [frameEnd_bad hsum, memRead_raiseError]

/-- The byte that completes a frame whose other bytes are stored is tested with their sum from index 3 on. -/
theorem execAddByte_frameEnd {b0 b1 b2 : Byte} {pre : List Byte} {s t : State}
    (hrun : StoredRun (b0 :: b1 :: b2 :: pre) s t) (h0 : s.rxLen = 0#16) (hmax : t.cap ≤ 65535)
    (hfit : pre.length + 3 < t.cap) (hN : frameN t = pre.length) (ck : Byte) :
    execAddByte ck t = .next (frameEnd (pre ++ [ck]) (storedState ck t)) := by
  have hrxLen : t.rxLen.toNat = pre.length + 3 := hrun.rxLen_eq_length h0
  rw [execAddByte_last hmax (by omega) (by omega) (by omega), hrxLen]
  congr 1
  refine if_congr ?_ rfl rfl
  rw [tailVerifies_append, ← chkSum_storedRun hrun h0]
  rfl

/-- A whole frame that fits CAP, fed in `Idle`: all its bytes are stored, and the last one ends it. -/
theorem feed_wireBytes {tail : List Byte} {s : State} (hcap : Config.legalCap s.cap) (h0 : s.rxLen = 0#16)
    (hfits : frameFits tail s) :
    ∃ u, StoredRun (wireBytes tail) s u ∧ feed (wireBytes tail) s =
      .next ((frameEnd tail u).setRx (List.replicate (tail.length + 2) none ++ (frameEnd tail u).out.rx)) := by
  obtain ⟨hpos, hfit⟩ := hfits
  obtain ⟨pre, ck, rfl⟩ := (List.eq_nil_or_concat' tail).resolve_left (List.ne_nil_of_length_pos hpos)
  have hlen : (pre ++ [ck]).length = pre.length + 1 := List.length_append
  have hmax := hcap.2
  obtain ⟨t, hpre, hrun, hN⟩ := feed_frame_open (pre ++ [ck]) pre hcap h0 hpos (by omega) (by omega) (by omega)
  have hcapT := hrun.cap
  have hrxLen : t.rxLen.toNat = pre.length + 3 := hrun.rxLen_eq_length h0
  have hlast := execAddByte_frameEnd hrun h0 (by omega) (by omega) (by omega) ck
  have hfeed := feed_append_next.mpr ⟨t, _, hpre, feed_single hlast, rfl⟩
  rw [hrun.rx] at hfeed
  refine ⟨_, hrun.append (.single (b := ck) (by omega) (by omega)), ?_⟩
  rw [frameEnd_setRx, frameEnd_setRx, hlen]
  exact hfeed

/-- The bytes in the buffer after a whole frame, valid or bad, are those of the frame. -/
theorem readBytes_frameEnd {tail : List Byte} {s u : State} (hrun : StoredRun (wireBytes tail) s u)
    (h0 : s.rxLen = 0#16) (r : List RxResult) :
    readBytes (rxSpace s.rxActive) (tail.length + 3) ((frameEnd tail u).setRx r) = wireBytes tail := by
  refine Eq.trans ?_ (hrun.readBytes_eq h0)
  simp only [readBytes, memRead_setRx, memRead_frameEnd, length_wireBytes, activeSpace]

/-- Settles O25: the bytes of the row are stored, and the sum being 0xFF the last of them completes the frame. -/
theorem wholeFrameIsReceived : Obligations.WholeFrameIsReceived := by
  intro i s hI hf h0 hfits hsum
  obtain ⟨u, hrun, hfeed⟩ := feed_wireBytes hI.capLegal h0 hfits
  have hbytes := readBytes_frameEnd hrun h0
  rw [frameEnd_valid hsum] at hfeed hbytes
  refine ⟨_, (exec_frame hf s).trans hfeed, ?_, rfl, congrArg otherBuf hrun.active, hrun.err, hbytes _⟩
  have hlen : u.rxLen = BitVec.ofNat 16 ((frameTail i).length + 3) := by
    rw [← length_wireBytes, ← hrun.rxLen_eq_length h0, BitVec.ofNat_toNat, BitVec.setWidth_eq]
  rw [setRx_out_rx, completeFrameRx_out_rx, hrun.active, hlen]

/-- Settles O26: the bytes of the row are stored, and the sum not being 0xFF the last of them is an error. -/
theorem badChecksumFrameIsDropped : Obligations.BadChecksumFrameIsDropped := by
  intro i s hI hf h0 hfits hsum
  obtain ⟨u, hrun, hfeed⟩ := feed_wireBytes hI.capLegal h0 hfits
  have hbytes := readBytes_frameEnd hrun h0
  rw [frameEnd_bad hsum] at hfeed hbytes
  refine ⟨_, (exec_frame hf s).trans hfeed, ?_, rfl, hrun.active, congrArg satInc hrun.err, hbytes _⟩
  rw [setRx_out_rx, raiseError_out_rx]
  exact List.replicate_succ'.symm

/-- A frame cut after its header. -/
theorem take_wireBytes (tail : List Byte) (n : Nat) : (wireBytes tail).take (n + 3) =
    Config.start :: hiByte (tail.length - 1) :: loByte (tail.length - 1) :: tail.take n := rfl

/-- Settles O27: short of the end it announces a frame is stored byte by byte (`feed_frame_open`), so CAP bytes of an
oversize one fill the buffer, and a full buffer rejects whatever byte comes next. -/
theorem oversizeFrameOverflows : Obligations.OversizeFrameOverflows := by
  intro tail s hI h0 hlong hle
  obtain ⟨n, hn⟩ := Nat.exists_eq_add_of_le' (le_trans (by decide : 3 ≤ 18) hI.capLegal.1)
  have hlen : (tail.take n).length = n := List.length_take_of_le (by omega)
  obtain ⟨t, hfeed, hrun, -⟩ :=
    feed_frame_open tail (tail.take n) hI.capLegal h0 (by omega) hle (by omega) (by omega)
  rw [← take_wireBytes, ← hn] at hfeed hrun
  have hcount : ((wireBytes tail).take s.cap).length = s.cap := by
    rw [hn, take_wireBytes]
    simp only [List.length_cons, hlen]
  have hfull : t.rxLen.toNat = s.cap := (hrun.rxLen_eq_length h0).trans hcount
  have hrx := hrun.rx
  have hbytes := hrun.readBytes_eq h0
  rw [hcount] at hrx hbytes
  refine ⟨t, hfeed, hfull, hrun.err, hrx, hbytes, fun b => ?_⟩
  exact ⟨_, execAddByte_overflow (hfull.trans hrun.cap.symm), rfl, rfl, hrun.active, congrArg satInc hrun.err,
    raiseError_mem _ t⟩

end Sys2Proof.Machine
end

section
/-! The builder (41_builder.md R120 to R128): the frame a build leaves in the transmit buffer, the one thing it reads, the
frame fed back to the receiver, and the ids over many builds. -/

namespace Sys2Proof.Machine

/-- Settles O37: the arm of BLD_NOP writes the result alone. -/
theorem bldNopDoesNothing : Obligations.BldNopDoesNothing := fun _ => rfl

/-- Settles O38: the arm of the reserved request is that of BLD_NOP. -/
theorem reservedRequestDoesNothing : Obligations.ReservedRequestDoesNothing := fun _ => rfl

theorem exec_build_over {i : Instr} (hb : isBuild i = true) {s : State} (hover : s.cap < buildLength i) :
    exec i s = .next (failBuild s) := by
  rw [exec_build hb, build_over hover]

/-- The state a build leaves where its frame fits (41_builder.md R123). -/
def afterBuild (i : Instr) (s : State) : State :=
  builtState (buildFrame i (nextId s.seqLast)) (buildLength i) s

theorem exec_build_fits {i : Instr} (hb : isBuild i = true) {s : State} (hfit : buildLength i ≤ s.cap) :
    exec i s = .next (afterBuild i s) := by
  rw [exec_build hb, build_fits hfit]
  rfl

@[simp] theorem afterBuild_seqLast (i : Instr) (s : State) : (afterBuild i s).seqLast = nextId s.seqLast := rfl

theorem afterBuild_txLen_toNat {i : Instr} {s : State} (hmax : s.cap ≤ 65535) (hfit : buildLength i ≤ s.cap) :
    (afterBuild i s).txLen.toNat = buildLength i :=
  Nat.mod_eq_of_lt (by omega)

theorem readBytes_afterBuild {i : Instr} (hb : isBuild i = true) (s : State) :
    readBytes .txbuf (buildLength i) (afterBuild i s) = buildFrame i (nextId s.seqLast) := by
  rw [← length_buildFrame hb (nextId s.seqLast)]
  exact readBytes_eq fun _ hk => memRead_builtState_tx _ _ s hk

theorem memRead_afterBuild_above {i : Instr} (hb : isBuild i = true) (s : State) {j : Nat} (hj : buildLength i ≤ j) :
    memRead .txbuf j (afterBuild i s) = memRead .txbuf j s :=
  memRead_builtState_tx_above _ _ s (by rwa [length_buildFrame hb])

/-- What a build leaves where its frame fits, and what it leaves alone (41_builder.md R123). -/
theorem exec_build_lays_out {i : Instr} (hb : isBuild i = true) {s : State} (hmax : s.cap ≤ 65535)
    (hfit : buildLength i ≤ s.cap) :
    ∃ t, exec i s = .next t ∧ t.seqLast = nextId s.seqLast ∧ t.txLen.toNat = buildLength i ∧
      t.out = { s.out with bld := .ok } ∧ readBytes .txbuf (buildLength i) t = buildFrame i (nextId s.seqLast) ∧
      (∀ j, buildLength i ≤ j → memRead .txbuf j t = memRead .txbuf j s) ∧
      sameReceiver s t ∧ t.cap = s.cap ∧ t.epoch = s.epoch ∧ t.inputs = s.inputs :=
  ⟨_, exec_build_fits hb hfit, rfl, afterBuild_txLen_toNat hmax hfit, rfl, readBytes_afterBuild hb s,
    fun _ => memRead_afterBuild_above hb s, ⟨rfl, rfl, rfl, rfl, rfl⟩, rfl, rfl, rfl⟩

/-- Settles O30: BUILD_CMD is the shared build, and its bytes are those of `cmdFrame_eq`. -/
theorem buildCmdLaysOutFrame : Obligations.BuildCmdLaysOutFrame := by
  intro s payload hcap
  refine ⟨fun hover => exec_build_over (i := .buildCmd payload) rfl hover, fun hfit => ?_⟩
  have hbuilt := exec_build_lays_out (i := .buildCmd payload) rfl hcap.2 hfit
  rw [buildFrame, cmdFrame_eq] at hbuilt
  exact hbuilt

/-- Settles O31: BUILD_DATA is the shared build, and its bytes are those of `dataFrame_eq`. -/
theorem buildDataLaysOutFrame : Obligations.BuildDataLaysOutFrame := by
  intro s addr payload hcap
  refine ⟨fun hover => exec_build_over (i := .buildData addr payload) rfl hover, fun hfit => ?_⟩
  have hbuilt := exec_build_lays_out (i := .buildData addr payload) rfl hcap.2 hfit
  rw [buildFrame, dataFrame_eq] at hbuilt
  exact hbuilt

/-- Bytes read as one list are read one by one. -/
theorem memRead_eq_of_readBytes_eq {sp sp' : Space} {n : Nat} {s t : State}
    (h : readBytes sp n s = readBytes sp' n t) {k : Nat} (hk : k < n) : memRead sp k s = memRead sp' k t := by
  have hget := getElem?_readBytes sp s hk
  rw [h, getElem?_readBytes sp' t hk] at hget
  exact (Option.some.inj hget).symm

/-- Settles O33: CAP alone decides which answer a build gives, and the frame is a function of the id drawn. -/
theorem buildReadsOnlySequencer : Obligations.BuildReadsOnlySequencer := by
  intro i s u t v hb hcap hs hu
  rcases lt_or_ge s.cap (buildLength i) with hover | hfit
  · cases (exec_build_over hb hover).symm.trans hs
    cases (exec_build_over hb (hcap ▸ hover)).symm.trans hu
    exact ⟨rfl, fun _ hok => nomatch hok⟩
  · cases (exec_build_fits hb hfit).symm.trans hs
    cases (exec_build_fits hb (hcap ▸ hfit)).symm.trans hu
    refine ⟨rfl, fun hseq _ => ⟨congrArg nextId hseq, rfl, fun k => memRead_eq_of_readBytes_eq ?_⟩⟩
    rw [readBytes_afterBuild hb, readBytes_afterBuild hb, hseq]

/-- A built frame is one on the wire that verifies (30_encoding.md R71, R78), taken here as a generic frame since the
receiver does not look at the type. -/
theorem FrameShape.eq_wireBytes {f : List Byte} {id : Byte} (hf : FrameShape f id) (hmax : f.length ≤ 65535) :
    ∃ body ck, f = wireBytes (genericTail body ck) ∧ tailVerifies (genericTail body ck) = true := by
  obtain ⟨b0, b1, b2, body, rfl⟩ := hf.sealed
  obtain ⟨hi, lo, hhi, hlo, hN⟩ := hf.length
  cases hf.start
  cases hhi
  cases hlo
  refine ⟨body, 0xFF#8 - sumBytes body, (wireBytes_of_length ?_).symm, (tailVerifies_append _ _).mpr ?_⟩
  · have htotal := hN hmax
    simp only [List.length_cons] at htotal
    omega
  · rw [BitVec.add_comm, BitVec.sub_add_cancel]

theorem txFrame_afterBuild {i : Instr} (hb : isBuild i = true) {s : State} (hmax : s.cap ≤ 65535)
    (hfit : buildLength i ≤ s.cap) : txFrame (afterBuild i s) = buildFrame i (nextId s.seqLast) := by
  rw [txFrame, afterBuild_txLen_toNat hmax hfit, readBytes_afterBuild hb]

/-- Settles O34: the built frame is the bytes of a frame row that fits CAP and verifies, so the receiver takes it whole
(`wholeFrameIsReceived`). -/
theorem builtFrameRoundTrip : Obligations.BuiltFrameRoundTrip := by
  intro i s hI h0 hb hfit
  have hmax := hI.capLegal.2
  have hexec := exec_build_fits hb hfit
  have hframe := txFrame_afterBuild hb hmax hfit
  have hlen := length_buildFrame hb (nextId s.seqLast)
  obtain ⟨body, ck, hwire, hsum⟩ := (frameShape_build hb (nextId s.seqLast)).eq_wireBytes (by omega)
  have htail : (genericTail body ck).length + 3 = buildLength i := by rw [← length_wireBytes, ← hwire, hlen]
  have hge := buildLength_ge hb
  have hpos : 1 ≤ (genericTail body ck).length := by omega
  obtain ⟨u, hu, hrx, -, -, -, hbytes⟩ := wholeFrameIsReceived (.frameGeneric body ck) (afterBuild i s)
    (build_keeps_inv hb hI hexec) (frameGeneric_isFrame body ck) h0 ⟨hpos, htail.trans_le hfit⟩ hsum
  simp only [frameTail, htail, ← hwire, ← hframe] at hrx hbytes
  have hnone : (genericTail body ck).length + 2 = buildLength i - 1 := by omega
  rw [hnone] at hrx
  have hfeed : feed (txFrame (afterBuild i s)) (afterBuild i s) = .next u := by rw [hframe, hwire]; exact hu
  refine ⟨_, u, hexec, afterBuild_txLen_toNat hmax hfit, hfeed, hrx, hbytes,
    fun k => memRead_eq_of_readBytes_eq (hbytes.trans ?_)⟩
  rw [hframe, readBytes_afterBuild hb]

theorem memRead_afterBuild_id {i : Instr} (hb : isBuild i = true) (s : State) :
    memRead .txbuf 4 (afterBuild i s) = nextId s.seqLast := by
  have h4 : 4 < buildLength i := lt_of_lt_of_le (by decide) (buildLength_ge hb)
  have hget := getElem?_readBytes .txbuf (afterBuild i s) h4
  rw [readBytes_afterBuild hb, (frameShape_build hb _).ident] at hget
  exact (Option.some.inj hget).symm

/-- The id after a run of successful builds, from any last id (41_builder.md R128). -/
theorem execAll_builds (is : List Instr) : ∀ (i : Instr) (s : State),
    (∀ j ∈ i :: is, isBuild j = true ∧ buildLength j ≤ s.cap) →
    ∃ t, execAll (i :: is) s = .next t ∧ t.seqLast.toNat = (s.seqLast.toNat + is.length) % 255 + 1 ∧
      memRead .txbuf 4 t = t.seqLast := by
  induction is with
  | nil =>
    intro i s hall
    obtain ⟨hb, hfit⟩ := hall i List.mem_cons_self
    refine ⟨afterBuild i s, ?_, nextId_toNat s.seqLast, memRead_afterBuild_id hb s⟩
    rw [execAll, exec_build_fits hb hfit]
    rfl
  | cons j is ih =>
    intro i s hall
    obtain ⟨⟨hb, hfit⟩, hrest⟩ := List.forall_mem_cons.mp hall
    obtain ⟨t, ht, hid, hbyte⟩ := ih j (afterBuild i s) hrest
    refine ⟨t, ?_, ?_, hbyte⟩
    · rw [execAll, exec_build_fits hb hfit]
      exact ht
    · rw [hid, afterBuild_seqLast, nextId_toNat, List.length_cons]
      omega

/-- Settles O35: the run from `seq_last` = 0 (`execAll_builds`). -/
theorem idsNumberSuccessfulBuilds : Obligations.IdsNumberSuccessfulBuilds := by
  intro is s _ h0 hne hall
  obtain ⟨i, is, rfl⟩ := List.exists_cons_of_ne_nil hne
  obtain ⟨t, ht, hid, hbyte⟩ := execAll_builds is i s hall
  refine ⟨t, ht, ?_, hbyte⟩
  rw [hid, h0, BitVec.toNat_ofNat, Nat.zero_mod, Nat.zero_add, List.length_cons, Nat.add_sub_cancel]

end Sys2Proof.Machine
end

section
/-! SUPPORT. What the checksum sees of a frame (spec/42_checksum.md R143): CHK_VERIFY compares the last byte with
CHK_COMPUTE, and each byte summed is determined by the sum and the others. -/

namespace Sys2Proof.Machine

theorem chkVerify_iff_chkCompute (f : Nat → Byte) {len : Nat} (h : 4 ≤ len) :
    chkVerify f len = true ↔ chkCompute f len = f (len - 1) :=
  calc chkVerify f len = true
      ↔ chkSum f 3 (len - 2) + f (len - 1) = 0xFF#8 := chkVerify_iff f h
    _ ↔ 0xFF#8 - chkSum f 3 (len - 2) = f (len - 1) := by rw [sub_eq_iff_eq_add', eq_comm]

/-- CHK_COMPUTE does not read the checksum's own place (R141). -/
theorem chkCompute_congr {f g : Nat → Byte} {len : Nat} (h : ∀ i, 3 ≤ i → i ≤ len - 2 → f i = g i) :
    chkCompute f len = chkCompute g len := by
  rw [chkCompute, chkCompute, chkSum_congr h]

/-- Two byte arrays that differ at most at one summed index have the same sum only when they agree there too: the other
terms cancel. -/
theorem chkSum_eq_iff_of_eq_off {f g : Nat → Byte} {lo j hi : Nat} (hlo : lo ≤ j) (hhi : j ≤ hi)
    (hoff : ∀ i, i ≠ j → g i = f i) : chkSum g lo hi = chkSum f lo hi ↔ g j = f j := by
  induction hi, hhi using Nat.le_induction with
  | base =>
    cases j with
    | zero =>
      obtain rfl : lo = 0 := Nat.le_zero.mp hlo
      simp [chkSum]
    | succ n =>
      have hbelow : chkSum g lo n = chkSum f lo n := chkSum_congr fun i _ hi => hoff i (by omega)
      rw [chkSum_snoc g hlo, chkSum_snoc f hlo, hbelow, add_right_inj]
  | succ hi hj ih =>
    rw [chkSum_snoc g (by omega), chkSum_snoc f (by omega), hoff (hi + 1) (by omega), add_left_inj, ih]

/-- Settles O40: the last byte that verifies is CHK_COMPUTE of the others (`chkVerify_iff_chkCompute`), two valid sums
are equal (`chkSum_eq_iff_of_eq_off`), and no sum reaches below index 3. -/
theorem checksumFunctionsAgree : Obligations.ChecksumFunctionsAgree := by
  intro f len hlen
  refine ⟨chkVerify_iff_chkCompute f hlen, ⟨chkCompute f len, fun g hg => ?_⟩,
    fun g j h3 hj hg hne hf => ?_, fun g hg => chkVerify_congr (fun i h3 _ => hg i h3) (by omega)⟩
  · have hsame : chkCompute g len = chkCompute f len := chkCompute_congr fun i _ hi => hg i (by omega)
    rw [chkVerify_iff_chkCompute g hlen, hsame, eq_comm]
  · rw [chkVerify, beq_iff_eq] at hf
    rw [chkVerify, beq_eq_false_iff_ne, ← hf]
    exact mt (chkSum_eq_iff_of_eq_off h3 hj hg).mp hne

end Sys2Proof.Machine
end

section
/-! SUPPORT. The ids SEQ_NEXT emits (spec/43_sequencer.md R150, R151). -/

namespace Sys2Proof.Machine

@[simp] theorem seqNext_snd_seqLast (s : State) : (seqNext s).2.seqLast = nextId s.seqLast := rfl

/-- The id call `k + 1` of SEQ_NEXT returns, from any last id (R150): a last id of 0 counts like 255. -/
theorem seqNext_iterate_toNat (k : Nat) (s : State) :
    (seqNext ((fun u => (seqNext u).2)^[k] s)).1.toNat = (s.seqLast.toNat + k) % 255 + 1 := by
  induction k generalizing s with
  | zero => exact nextId_toNat s.seqLast
  | succ k ih =>
    rw [Function.iterate_succ_apply, ih, seqNext_snd_seqLast, nextId_toNat]
    omega

/-- Settles O36: one call is `nextId` of the last id, and the calls from `seq_last` = 0 are `seqNext_iterate_toNat`. -/
theorem sequencerNeverEmitsZero : Obligations.SequencerNeverEmitsZero := by
  refine ⟨fun s => ⟨rfl, rfl, nextId_ne_zero s.seqLast⟩, fun k s h0 => ?_⟩
  rw [seqNext_iterate_toNat, h0, BitVec.toNat_ofNat, Nat.zero_mod, Nat.zero_add]

end Sys2Proof.Machine
end

section
/-! The read ports and the error counter (spec/44_readout.md R160 to R164): what each read samples, what an edge's requests
leave of the samples, and how many errors a FEED counts. -/

namespace Sys2Proof.Machine

/-- Settles O41: `portRead` is the byte of the space or 0x00. -/
theorem rxReadReturnsByte : Obligations.RxReadReturnsByte := fun _ _ _ => rfl

/-- Settles O42: `portRead` on the transmit buffer, and the register `tx_len`. -/
theorem txReadAndTxLenReturn : Obligations.TxReadAndTxLenReturn := fun _ _ => ⟨rfl, rfl⟩

/-- Settles O43: ERROR_COUNT samples its own port and writes nothing else. -/
theorem errorCountReturnsCounter : Obligations.ErrorCountReturnsCounter := fun _ => rfl

/-- The receiver's operation writes no result but its own (30_encoding.md R81). -/
theorem receiverOp_out {p : Pins} {s t : State} (h : receiverOp p s = .next t) :
    t.out = { s.out with rx := t.out.rx } :=
  (congrArg State.out (graft_of_receiverOp h)).symm

/-- The builder's operation writes no result but its own (30_encoding.md R83). -/
theorem builderOp_out {p : Pins} {s t : State} (h : builderOp p s = .next t) :
    t.out = { s.out with bld := t.out.bld } := by
  rcases decodeBld_cases p.bldOp p.bldAddr p.bldPlen p.bldPayload with hb | hquiet
  · rcases exec_build_cases hb s with ⟨-, e⟩ | ⟨-, e⟩
    all_goals
      cases e.symm.trans h
      rfl
  · cases (hquiet s).symm.trans h
    rfl

/-- Whatever an edge asks, RESET included, its requests leave the read ports' samples as they are (R85). -/
theorem requestOps_out {p : Pins} {s t : State} (h : requestOps p s = .next t) :
    t.out = { s.out with rx := t.out.rx, bld := t.out.bld } := by
  unfold requestOps at h
  split_ifs at h
  · cases h
    rfl
  · obtain ⟨u, hrx, hbld⟩ := andThen_eq_next.mp h
    rw [builderOp_out hbld, receiverOp_out hrx]

/-- A read port does not look at the host's queue. -/
theorem portRead_setInputs (sp : Space) (i : Half) (s : State) (xs : List Input) :
    portRead sp i (s.setInputs xs) = portRead sp i s := by
  rw [portRead, portRead, memRead_setInputs, setInputs_cap]

/-- Settles O44: an edge samples its read ports first (`edge_eq`), and its requests leave the samples (`requestOps_out`). -/
theorem readPortsShowStateBefore : Obligations.ReadPortsShowStateBefore := by
  intro s p rest t hin h
  rw [step_edge hin, edge_eq] at h
  rw [requestOps_out h]
  exact ⟨congrArg some (portRead_setInputs _ _ s rest), congrArg some (portRead_setInputs _ _ s rest), rfl, rfl⟩

/-- Whether the tests of R100 after the store end in `ChecksumMismatch` (40_receiver.md R106). -/
def mismatches (u : State) : Bool :=
  decide (3 ≤ u.rxLen.toNat) && decide (u.rxLen.toNat = frameN u + 4)
    && !chkVerify (fun i => memRead (activeSpace u) i u) u.rxLen.toNat

theorem mismatches_eq_true {u : State} : mismatches u = true ↔ 3 ≤ u.rxLen.toNat ∧ u.rxLen.toNat = frameN u + 4 ∧
    chkVerify (fun i => memRead (activeSpace u) i u) u.rxLen.toNat = false := by
  simp only [mismatches, Bool.and_eq_true, decide_eq_true_eq, Bool.not_eq_true', and_assoc]

theorem afterStore_errCount (u : State) :
    (afterStore u).errCount = if mismatches u then satInc u.errCount else u.errCount := by
  rcases afterStore_cases u with ⟨hopen, e⟩ | ⟨-, -, hvalid, e⟩ | ⟨h3, hN, hbad, e⟩ <;> rw [e]
  · refine (if_neg fun hm => ?_).symm
    obtain ⟨h3, hN, -⟩ := mismatches_eq_true.mp hm
    omega
  · refine (if_neg fun hm => ?_).symm
    obtain ⟨-, -, hbad⟩ := mismatches_eq_true.mp hm
    exact Bool.false_ne_true (hbad.symm.trans hvalid)
  · exact (if_pos (mismatches_eq_true.mpr ⟨h3, hN, hbad⟩)).symm

theorem raisesError_overflow {b : Byte} {s : State} (hfull : s.rxLen.toNat = s.cap) : raisesError b s = true :=
  if_pos hfull

theorem raisesError_desync {b : Byte} {s : State} (hne : s.rxLen.toNat ≠ s.cap) (h0 : s.rxLen = 0#16)
    (hb : b ≠ Config.start) : raisesError b s = true := by
  rw [raisesError, if_neg hne, if_pos h0, decide_eq_true hb]

/-- A byte that is stored raises the error that the tests after the store find: in `Idle` that is none, since the start
byte alone completes no frame. -/
theorem raisesError_store {b : Byte} {s : State} (hmax : s.cap ≤ 65535) (hlt : s.rxLen.toNat < s.cap)
    (hacc : ¬ (s.rxLen = 0#16 ∧ b ≠ Config.start)) : raisesError b s = mismatches (storedState b s) := by
  have hlen := rxLen_storedState b s (by omega)
  rw [raisesError, if_neg hlt.ne, mismatches, hlen, activeSpace_storedState]
  by_cases h0 : s.rxLen = 0#16
  · have hshort : ¬ 3 ≤ s.rxLen.toNat + 1 := by rw [h0]; decide
    rw [if_pos h0, decide_eq_false fun hb => hacc ⟨h0, hb⟩, decide_eq_false hshort]
    rfl
  · rw [if_neg h0]

/-- ADD_BYTE counts the error it raises and no other (60_exceptions.md R176). -/
theorem execAddByte_errCount {b : Byte} {s t : State} (hmax : s.cap ≤ 65535) (h : execAddByte b s = .next t) :
    t.errCount = if raisesError b s then satInc s.errCount else s.errCount := by
  rcases execAddByte_cases h with ⟨hfull, rfl⟩ | ⟨hne, h0, hb, rfl⟩ | ⟨hlt, hacc, rfl⟩
  · rw [raisesError_overflow hfull]
    rfl
  · rw [raisesError_desync hne h0 hb]
    rfl
  · rw [afterStore_errCount, raisesError_store hmax hlt hacc, storedState_errCount]

theorem execAddByte_errCount_toNat {b : Byte} {s t : State} (hmax : s.cap ≤ 65535) (h : execAddByte b s = .next t) :
    t.errCount.toNat = min 255 (s.errCount.toNat + if raisesError b s then 1 else 0) := by
  have hbound := s.errCount.isLt
  rw [execAddByte_errCount hmax h]
  split_ifs
  · exact satInc_toNat s.errCount
  · omega

theorem errorsFed_cons {b : Byte} {s t : State} (h : execAddByte b s = .next t) (bs : List Byte) :
    errorsFed (b :: bs) s = (if raisesError b s then 1 else 0) + errorsFed bs t := by
  simp only [errorsFed, h]

/-- Settles O18, by induction on the bytes: each one counts the error it raises (`execAddByte_errCount_toNat`), and two
saturating sums one after the other are one. -/
theorem errorCountSaturates : Obligations.ErrorCountSaturates := by
  intro bytes
  induction bytes with
  | nil =>
    intro s t _ h
    cases h
    have hbound := s.errCount.isLt
    rw [setRx_errCount, errorsFed]
    omega
  | cons b bs ih =>
    intro s t hcap h
    obtain ⟨s1, u, hone, hrest, rfl⟩ := feed_cons_next.mp h
    have hcap1 : s1.cap = s.cap := (execAddByte_frame hone).1
    rw [setRx_errCount, ih s1 u (hcap1 ▸ hcap) hrest, execAddByte_errCount_toNat hcap.2 hone, errorsFed_cons hone]
    omega

end Sys2Proof.Machine
end

section
/-! The exceptions (spec/60_exceptions.md R174 to R188): the error counter only grows, a build fails exactly over CAP, an
edge without a request changes nothing, and no request stops the block. -/

namespace Sys2Proof.Machine

theorem edge_completes (p : Pins) {s : State} (hI : BlockInv s) : ∃ t, edge p s = .next t := by
  have hsampled : BlockInv (sampledState p s) := hI.withOut _ _
  cases hr : p.rst with
  | true => exact ⟨_, edge_rst hr s⟩
  | false =>
    obtain ⟨u, hrx⟩ := exec_completes (decodeRxw p.rxw) hsampled
    rw [edge_request hr, hrx]
    exact exec_completes _ (exec_keeps_inv hsampled hrx)

/-- A step is an edge or the FEED of some bytes, and the invariant lets both answer. -/
theorem step_completes {s : State} (hI : BlockInv s) : ∃ t, step s = .next t := by
  cases hin : s.inputs with
  | nil => rw [step_nil hin]; exact edge_completes idlePins hI
  | cons x rest =>
    cases x with
    | edge p => rw [step_edge hin]; exact edge_completes p (hI.withOut _ _)
    | feed bytes =>
      rw [step_feed hin, runBytes_eq_feed]
      exact feed_completes bytes (hI.withOut _ _)

theorem run_succ_of_step {M : Host.Core} {s u : M.State} (h : M.step s = .next u) (k : Nat) :
    M.run (k + 1) s = M.run k u := by
  rw [Host.Core.run, h]

/-- Settles O4, by induction on the number of steps: each one answers (`step_completes`) and keeps the invariant that the
next one needs. -/
theorem blockNeverStops : Obligations.BlockNeverStops := by
  intro k
  induction k with
  | zero => exact fun s hI => ⟨s, rfl, hI⟩
  | succ k ih =>
    intro s hI
    obtain ⟨u, hstep⟩ := step_completes hI
    obtain ⟨t, hrun, hIt⟩ := ih u (stepKeepsInvariant s u hI hstep)
    exact ⟨t, (run_succ_of_step (M := core) hstep k).trans hrun, hIt⟩

theorem le_satInc (c : Byte) : c.toNat ≤ (satInc c).toNat := by
  have hbound := c.isLt
  rw [satInc_toNat]
  omega

/-- ADD_BYTE raises an error, which increments the counter, or leaves the counter (60_exceptions.md R175). -/
theorem execAddByte_errCount_le {b : Byte} {s t : State} (h : execAddByte b s = .next t) :
    s.errCount.toNat ≤ t.errCount.toNat := by
  rcases execAddByte_cases h with ⟨-, rfl⟩ | ⟨-, -, -, rfl⟩ | ⟨-, -, rfl⟩
  · exact le_satInc s.errCount
  · exact le_satInc s.errCount
  · rw [afterStore_errCount, storedState_errCount]
    split_ifs
    · exact le_satInc s.errCount
    · exact le_rfl

theorem feed_errCount_le {bs : List Byte} {s t : State} (h : feed bs s = .next t) :
    s.errCount.toNat ≤ t.errCount.toNat :=
  feed_keeps (P := fun s t => s.errCount.toNat ≤ t.errCount.toNat) (fun _ _ => le_rfl)
    (fun _ _ _ _ => le_trans) (fun _ _ _ => execAddByte_errCount_le) bs s t h

/-- RESET apart, an operation that presents no byte to the receiver leaves the receiver's state, and so the counter,
alone (20_memory.md R51). -/
theorem exec_errCount_le {i : Instr} {s t : State} (hr : i ≠ .reset) (h : exec i s = .next t) :
    s.errCount.toNat ≤ t.errCount.toNat := by
  by_cases hb : ∃ b, i = .addByte b
  · obtain ⟨b, rfl⟩ := hb
    exact execAddByte_errCount_le h
  cases hf : isFrame i with
  | true => exact feed_errCount_le ((exec_frame hf s).symm.trans h)
  | false =>
    obtain ⟨-, -, howner⟩ := unitsOwnTheirState i s t h
    obtain ⟨-, -, hreceiver⟩ := howner hr
    obtain ⟨-, -, -, -, herr⟩ := hreceiver hf (not_exists.mp hb)
    rw [herr]

/-- Settles O20: the recovery of R175 increments the counter, RESET writes 0, and no other operation lowers it. -/
theorem onlyResetLowersErrorCount : Obligations.OnlyResetLowersErrorCount := by
  refine ⟨fun _ => rfl, raiseError_errCount, fun _ _ _ => exec_errCount_le, fun s t h => ?_⟩
  cases h
  rfl

/-- Settles O32: the two answers of a build, `failBuild` and `afterBuild`. -/
theorem buildFailsExactlyOverCapacity : Obligations.BuildFailsExactlyOverCapacity :=
  fun _ _ hb => ⟨exec_build_over hb, fun hfit => ⟨_, exec_build_fits hb hfit, rfl⟩⟩

/-- Settles O49: with an empty queue the edge is a quiet one (`edge_quiet`). -/
theorem idleStepKeepsState : Obligations.IdleStepKeepsState := fun s hin =>
  ⟨_, (step_nil hin).trans (edge_quiet rfl rfl rfl s), sameBlock_quiet idlePins s, hin, rfl, rfl⟩

end Sys2Proof.Machine
end

section
/-! RESET (spec/70_reset_and_hazards.md R200), on its own and at an edge. -/

namespace Sys2Proof.Machine

/-- After RESET no byte is written: each is a free value of the next epoch (10_state.md R35). -/
@[simp] theorem memRead_resetBlock (s : State) (sp : Space) (i : Nat) :
    memRead sp i (resetBlock s) = Config.unspecifiedByte (s.epoch + 1) sp i := by
  rw [memRead, resetBlock_mem, Memory.lookup_nil, resetBlock_epoch, Option.getD_none]

/-- Settles O6: RESET is `resetBlock` and two results, which no byte depends on. -/
theorem resetOperation : Obligations.ResetOperation := fun s =>
  ⟨_, rfl, rfl, rfl, rfl, rfl, rfl, fun sp i => by simp, rfl, rfl, rfl⟩

/-- Settles O7: an edge with `rst` = 1 is RESET after the read ports (`edge_rst`), which depend on no request. -/
theorem resetHasPriority : Obligations.ResetHasPriority := by
  intro s p rest hin hp
  refine ⟨_, (step_edge hin).trans (edge_rst hp _), rfl, rfl, rfl, rfl, rfl, rfl, rfl, rfl, rfl, ?_⟩
  intro q hq hrx htx
  rw [step_edge rfl, edge_rst hq, sampledState_congr hrx htx]
  rfl

end Sys2Proof.Machine
end

section
/-! The life of a returned frame (spec/70_reset_and_hazards.md R204): what an entry of the trace, and so what any
requests leave of one buffer space. -/

namespace Sys2Proof.Machine

/-- A read port returns the same bytes of a space in both states. -/
structure SameSpace (sp : Space) (s t : State) : Prop where
  cap : t.cap = s.cap
  epoch : t.epoch = s.epoch
  mem : t.mem sp = s.mem sp

theorem SameSpace.refl (sp : Space) (s : State) : SameSpace sp s s := ⟨rfl, rfl, rfl⟩

theorem SameSpace.trans {sp : Space} {s t u : State} (hst : SameSpace sp s t) (htu : SameSpace sp t u) :
    SameSpace sp s u :=
  ⟨htu.cap.trans hst.cap, htu.epoch.trans hst.epoch, htu.mem.trans hst.mem⟩

theorem SameSpace.memRead_eq {sp : Space} {s t : State} (h : SameSpace sp s t) (i : Nat) :
    memRead sp i t = memRead sp i s :=
  memRead_congr h.epoch (by rw [h.mem])

theorem SameSpace.portRead_eq {sp : Space} {s t : State} (h : SameSpace sp s t) (i : Half) :
    portRead sp i t = portRead sp i s := by
  rw [portRead, portRead, h.cap, h.memRead_eq]

/-- A receive buffer is the same where the receiver's part is. -/
theorem SameSpace.of_sameReceiver {s t : State} (hcap : t.cap = s.cap) (hepoch : t.epoch = s.epoch)
    (h : sameReceiver s t) (k : BufId) : SameSpace (rxSpace k) s t := by
  obtain ⟨h0, h1, -⟩ := h
  refine ⟨hcap, hepoch, ?_⟩
  cases k with
  | buf0 => exact h0.symm
  | buf1 => exact h1.symm

theorem SameSpace.of_sameBlock {s t : State} (h : sameBlock s t) (sp : Space) : SameSpace sp s t := by
  rw [eq_withPorts h]
  refine ⟨rfl, rfl, ?_⟩
  cases sp <;> rfl

/-- Sampling the read ports leaves every space alone (44_readout.md R164). -/
theorem SameSpace.sampledState (sp : Space) (p : Pins) (s : State) : SameSpace sp s (sampledState p s) :=
  .of_sameBlock (sameBlock_withPorts s s.inputs (readSamples p s)) sp

/-- An entry that presents bytes is their FEED (R91), but for the queue and the results. -/
theorem runInput_feed {bytes : List Byte} {s t : State} (h : runInput (.feed bytes) s = .next t) :
    ∃ u, feed bytes s = .next u ∧ sameBlock u t :=
  ⟨_, feed_withPorts ((runBytes_eq_feed bytes s.clearOut).symm.trans h) s.inputs s.out,
    rfl, rfl, rfl, rfl, rfl, rfl, rfl, rfl, rfl, rfl⟩

/-- The receiver's request at an edge is neither RESET nor a build (30_encoding.md R85). -/
theorem decodeRxw_cases (w : BitVec 9) : decodeRxw w ≠ .reset ∧ isBuild (decodeRxw w) = false := by
  unfold decodeRxw
  split_ifs
  · exact ⟨nofun, rfl⟩
  · exact ⟨nofun, rfl⟩

/-- The receiver's request leaves the builder's part alone (20_memory.md R51). -/
theorem exec_decodeRxw_frame {w : BitVec 9} {s t : State} (h : exec (decodeRxw w) s = .next t) :
    t.cap = s.cap ∧ t.epoch = s.epoch ∧ sameBuilder s t := by
  obtain ⟨hreset, hbuild⟩ := decodeRxw_cases w
  obtain ⟨hcap, -, howner⟩ := unitsOwnTheirState _ _ _ h
  obtain ⟨hepoch, hbuilder, -⟩ := howner hreset
  exact ⟨hcap, hepoch, hbuilder hbuild⟩

/-- The builder's request leaves the receive buffers alone (R51). -/
theorem exec_decodeBld_sameSpace {op : BitVec 2} {addr : Addr} {plen : Half} {payload : Nat} {s t : State}
    (h : exec (decodeBld op addr plen payload) s = .next t) (k : BufId) : SameSpace (rxSpace k) s t := by
  rcases decodeBld_cases op addr plen payload with hb | hquiet
  · obtain ⟨hcap, -, hepoch, hreceiver⟩ := exec_build_frame hb h
    exact .of_sameReceiver hcap hepoch hreceiver k
  · cases (hquiet s).symm.trans h
    exact ⟨rfl, rfl, setBld_mem s _ _⟩

/-- The receiver's request leaves a buffer alone in which it stores no byte (20_memory.md R64). -/
theorem exec_decodeRxw_sameSpace {k : BufId} {w : BitVec 9} {s t : State}
    (hs : (w.extractLsb' 8 1 == 1#1 && storesInto k (w.extractLsb' 0 8) s) = false)
    (h : exec (decodeRxw w) s = .next t) : SameSpace (rxSpace k) s t := by
  obtain ⟨hcap, hepoch, -⟩ := exec_decodeRxw_frame h
  refine ⟨hcap, hepoch, ?_⟩
  unfold decodeRxw at h
  split_ifs at h with hvalid
  · rw [hvalid, beq_self_eq_true, Bool.true_and] at hs
    exact execAddByte_not_stored hs h
  · cases h
    exact setRx_mem s _ _

/-- An entry of the trace that does not end the life of the frame in a buffer leaves the buffer alone (R204). -/
theorem runInput_sameSpace {k : BufId} {x : Input} {s t : State} (hx : endsReading k x s = false)
    (h : runInput x s = .next t) : SameSpace (rxSpace k) s t := by
  cases x with
  | edge p =>
    obtain ⟨hrst, hstored⟩ := Bool.or_eq_false_iff.mp hx
    obtain ⟨u, hrx, hbld⟩ := andThen_eq_next.mp ((edge_request hrst s).symm.trans h)
    have hreceiver := (SameSpace.sampledState _ p s).trans (exec_decodeRxw_sameSpace hstored hrx)
    exact hreceiver.trans (exec_decodeBld_sameSpace hbld k)
  | feed bytes =>
    obtain ⟨u, hfeed, hblock⟩ := runInput_feed h
    obtain ⟨hcap, hepoch, -⟩ := feed_frame hfeed
    exact .trans ⟨hcap, hepoch, feed_not_stored hx hfeed⟩ (.of_sameBlock hblock _)

/-- Requests over which the contract of a handle holds leave its buffer alone, by induction on the requests (R204). -/
theorem runInputs_sameSpace {h : Handle} : ∀ {since : List Input} {s t : State}, handleReadable h since s = true →
    runInputs since s = .next t → SameSpace (rxSpace h.buf) s t := by
  intro since
  induction since with
  | nil => intro s t _ hrun; cases hrun; exact .refl _ s
  | cons x xs ih =>
    intro s t hread hrun
    obtain ⟨u, hx, hxs⟩ := andThen_eq_next.mp hrun
    rw [handleReadable_cons hx, Bool.and_eq_true, Bool.not_eq_true'] at hread
    obtain ⟨hends, hrest⟩ := hread
    exact (runInput_sameSpace hends hx).trans (ih hrest hxs)

/-- Settles O57: the buffer of the handle is left alone, and RX_READ shows nothing else. -/
theorem handleReadsReturnedFrame : Obligations.HandleReadsReturnedFrame :=
  fun _ _ _ _ hread hrun i => ⟨_, rfl, congrArg some ((runInputs_sameSpace hread hrun).portRead_eq i)⟩

end Sys2Proof.Machine
end

section
/-! The life of a built frame (spec/70_reset_and_hazards.md R205): without a build and without RESET nothing writes the
transmit buffer or `tx_len`. -/

namespace Sys2Proof.Machine

/-- A request at the builder's port that is no build writes the builder's result alone (30_encoding.md R85, R89). -/
theorem exec_decodeBld_quiet {op : BitVec 2} (hcmd : op ≠ 0b01#2) (hdata : op ≠ 0b10#2) (addr : Addr) (plen : Half)
    (payload : Nat) (s : State) : exec (decodeBld op addr plen payload) s = .next (s.setBld .idle) := by
  unfold decodeBld
  rw [if_neg hcmd, if_neg hdata]
  split_ifs
  · rfl
  · rfl

/-- The transmit buffer and `tx_len` are the same where the builder's part is. -/
theorem sameTxFrame_of_sameBuilder {s t : State} (hcap : t.cap = s.cap) (hepoch : t.epoch = s.epoch)
    (h : sameBuilder s t) : SameSpace .txbuf s t ∧ t.txLen = s.txLen := by
  obtain ⟨hbuf, hlen, -⟩ := h
  exact ⟨⟨hcap, hepoch, hbuf.symm⟩, hlen.symm⟩

/-- An entry of the trace without a build and without RESET leaves the frame last built alone (R205). -/
theorem runInput_sameTxFrame {x : Input} {s t : State} (hx : endsSending x = false) (h : runInput x s = .next t) :
    SameSpace .txbuf s t ∧ t.txLen = s.txLen := by
  cases x with
  | edge p =>
    simp only [endsSending, Bool.or_eq_false_iff, beq_eq_false_iff_ne] at hx
    obtain ⟨⟨hrst, hcmd⟩, hdata⟩ := hx
    obtain ⟨u, hrx, hbld⟩ := andThen_eq_next.mp ((edge_request hrst s).symm.trans h)
    obtain ⟨hcap, hepoch, hbuilder⟩ := exec_decodeRxw_frame hrx
    cases (exec_decodeBld_quiet hcmd hdata _ _ _ u).symm.trans hbld
    exact sameTxFrame_of_sameBuilder hcap hepoch hbuilder
  | feed bytes =>
    obtain ⟨hcap, hepoch, hbuf, hlen, -⟩ := feed_frame ((runBytes_eq_feed bytes s.clearOut).symm.trans h)
    exact ⟨⟨hcap, hepoch, hbuf⟩, hlen⟩

theorem sendReadable_cons (x : Input) (xs : List Input) :
    sendReadable (x :: xs) = (!endsSending x && sendReadable xs) := by
  simp only [sendReadable, List.any_cons, Bool.not_or]

/-- Requests without a build and without RESET leave the frame last built alone, by induction on the requests (R205). -/
theorem runInputs_sameTxFrame : ∀ {since : List Input} {s t : State}, sendReadable since = true →
    runInputs since s = .next t → SameSpace .txbuf s t ∧ t.txLen = s.txLen := by
  intro since
  induction since with
  | nil => intro s t _ hrun; cases hrun; exact ⟨.refl _ s, rfl⟩
  | cons x xs ih =>
    intro s t hsend hrun
    obtain ⟨u, hx, hxs⟩ := andThen_eq_next.mp hrun
    rw [sendReadable_cons, Bool.and_eq_true, Bool.not_eq_true'] at hsend
    obtain ⟨hends, hrest⟩ := hsend
    obtain ⟨hfirst, hlenFirst⟩ := runInput_sameTxFrame hends hx
    obtain ⟨hlater, hlenLater⟩ := ih hrest hxs
    exact ⟨hfirst.trans hlater, hlenLater.trans hlenFirst⟩

/-- Settles O60: the transmit buffer and `tx_len` are left alone, and TX_READ and the frame show nothing else. -/
theorem builtFrameStaysUntilNextBuild : Obligations.BuiltFrameStaysUntilNextBuild := by
  intro since s t hsend hrun
  obtain ⟨hspace, hlen⟩ := runInputs_sameTxFrame hsend hrun
  refine ⟨hlen, ?_, fun i => ⟨_, rfl, congrArg some (hspace.portRead_eq i)⟩⟩
  simp only [txFrame, readBytes, hlen, hspace.memRead_eq]

end Sys2Proof.Machine
end

section
/-! The one frame of slack (spec/70_reset_and_hazards.md R204): which byte ends the life of a returned frame, and what the
buffer holds while the frame after the next comes in. -/

namespace Sys2Proof.Machine

/-- No entry of the trace stops the block (60_exceptions.md R188). -/
theorem runInput_completes (x : Input) {s : State} (hI : BlockInv s) : ∃ t, runInput x s = .next t := by
  cases x with
  | edge p => exact edge_completes p hI
  | feed bytes =>
    obtain ⟨t, h⟩ := feed_completes bytes (hI.withOut s.inputs Outputs.quiet)
    exact ⟨t, (runBytes_eq_feed bytes s.clearOut).trans h⟩

/-- The contract of a handle over one entry of the trace. -/
theorem handleReadable_singleton (h : Handle) (x : Input) {s : State} (hI : BlockInv s) :
    handleReadable h [x] s = !endsReading h.buf x s := by
  obtain ⟨t, hx⟩ := runInput_completes x hI
  rw [handleReadable_cons hx, handleReadable, Bool.and_true]

/-- With the buffer active and the receiver in `Idle`, the byte that ends the life of its frame is the start delimiter. -/
theorem storesInto_idle {k : BufId} {s : State} (hI : BlockInv s) (hk : s.rxActive = k) (h0 : s.rxLen = 0#16)
    (b : Byte) : storesInto k b s = decide (b = Config.start) := by
  have hroom : s.rxLen.toNat ≠ s.cap := by
    have hcap := hI.capLegal.1
    rw [h0, BitVec.toNat_ofNat]
    omega
  rw [Bool.eq_iff_iff, storesInto_eq_true, decide_eq_true_eq]
  exact ⟨fun ⟨_, _, hacc⟩ => not_not.mp fun hb => hacc ⟨h0, hb⟩, fun hb => ⟨hk, hroom, fun hrej => hrej.2 hb⟩⟩

/-- Settles O58: while its buffer is not active a handle ends with no byte (`storesInto_inactive`,
`feedStoresInto_inactive`), and once it is, with the first start delimiter (`storesInto_idle`). -/
theorem handleHasOneFrameOfSlack : Obligations.HandleHasOneFrameOfSlack := by
  intro h s hI
  refine ⟨fun hother => ⟨fun p hrst => ?_, fun bytes t hfeed hnone => ?_⟩, fun hactive h0 b => ?_⟩
  · rw [handleReadable_singleton h _ hI, endsReading, hrst, storesInto_inactive hother, Bool.and_false]
    rfl
  · rw [handleReadable_singleton h _ hI, endsReading, feedStoresInto_inactive hother hfeed hnone]
    rfl
  · obtain ⟨t, hone⟩ := execAddByte_completes b hI.rxLenLe
    rw [handleReadable_singleton h _ hI, endsReading, feedStoresInto_cons hone, storesInto_idle hI hactive h0,
      feedStoresInto, Bool.or_false, ← decide_not]
    rfl

/-- Bytes of the header, as many as are still missing of it, are all stored, the first in `Idle` being the start delimiter
(40_receiver.md R107). -/
theorem feed_header_part (bs : List Byte) : ∀ {s : State}, Config.legalCap s.cap → s.rxLen.toNat + bs.length ≤ 3 →
    (s.rxLen = 0#16 → ∀ b ∈ bs.head?, b = Config.start) → ∃ t, feed bs s = .next t ∧ StoredRun bs s t := by
  induction bs with
  | nil => intro s _ _ _; exact ⟨_, feed_nil s, .nil s⟩
  | cons b bs ih =>
    intro s hcap hlen hstart
    rw [List.length_cons] at hlen
    obtain ⟨hlow, hmax⟩ := hcap
    have hacc : ¬ (s.rxLen = 0#16 ∧ b ≠ Config.start) := fun ⟨h0, hb⟩ => hb (hstart h0 b rfl)
    have hone := execAddByte_open hmax (by omega) hacc (.inl (by omega))
    have hrun := StoredRun.single (b := b) (s := s) hmax (by omega)
    have hrxLen : ((storedState b s).setRx [none]).rxLen.toNat = s.rxLen.toNat + 1 := hrun.rxLen
    obtain ⟨t, hrest, hrun'⟩ := ih (s := (storedState b s).setRx [none]) (by rw [hrun.cap]; exact ⟨hlow, hmax⟩)
      (by omega) (fun h0 => by rw [h0] at hrxLen; simp at hrxLen)
    exact ⟨_, feed_cons_next.mpr ⟨_, t, hone, hrest, rfl⟩, hrun.append hrun'⟩

/-- The beginning of a frame, fed in `Idle`, is stored byte by byte: its header, and then the bytes of `Collecting`
(40_receiver.md R107). -/
theorem feed_take_wireBytes {tail : List Byte} {n : Nat} {s : State} (hcap : Config.legalCap s.cap)
    (h0 : s.rxLen = 0#16) (hle : tail.length ≤ 65536) (hshort : n < tail.length + 3) (hfit : n ≤ s.cap) :
    ∃ t, feed ((wireBytes tail).take n) s = .next t ∧ StoredRun ((wireBytes tail).take n) s t := by
  rcases lt_or_ge n 3 with hheader | hbody
  · refine feed_header_part _ hcap ?_ fun _ b hb => ?_
    · rw [h0, List.length_take, BitVec.toNat_ofNat]
      omega
    · cases n with
      | zero => nomatch hb
      | succ n => exact (Option.some.inj hb).symm
  · obtain ⟨m, rfl⟩ := Nat.exists_eq_add_of_le' hbody
    have hlen : (tail.take m).length = m := List.length_take_of_le (by omega)
    obtain ⟨t, hfeed, hrun, -⟩ := feed_frame_open tail (tail.take m) hcap h0 (by omega) hle (by omega) (by omega)
    exact ⟨t, hfeed, hrun⟩

/-- After bytes stored from `Idle` on, the active buffer holds them, and beyond them what it held before. -/
theorem StoredRun.memRead_active {bs : List Byte} {s t : State} (hrun : StoredRun bs s t) (h0 : s.rxLen = 0#16)
    (j : Nat) :
    memRead (activeSpace s) j t = if j < bs.length then bs.getD j 0#8 else memRead (activeSpace s) j s := by
  have hn : s.rxLen.toNat = 0 := congrArg BitVec.toNat h0
  split_ifs with hj
  · have hbyte := hrun.bytes j hj
    rw [hn, Nat.zero_add] at hbyte
    rw [List.getD_eq_getElem?_getD, ← hbyte, Option.getD_some]
  · exact hrun.other _ _ (.inr (.inr (by omega)))

/-- Settles O59: the new frame's bytes are stored from index 0 on (`feed_take_wireBytes`), and no other index changes. -/
theorem lateReaderSeesMixOfFrames : Obligations.LateReaderSeesMixOfFrames := by
  intro h s tail n hI hactive h0 hle hshort hfit
  obtain ⟨t, hfeed, hrun⟩ := feed_take_wireBytes hI.capLegal h0 hle hshort hfit
  refine ⟨t, hfeed, fun j => ?_⟩
  have hlen : ((wireBytes tail).take n).length = n := List.length_take_of_le hshort.le
  have hread := hrun.memRead_active h0 j
  rw [hlen, activeSpace, hactive] at hread
  rw [hread]
  refine ite_congr rfl (fun hj => ?_) fun _ => rfl
  rw [List.getD_eq_getElem?_getD, List.getElem?_take_of_lt hj, List.getD_eq_getElem?_getD]

end Sys2Proof.Machine
end
